-- ==== Sys2Proof/Word.lean ====
section
/-! DEFINITION. The word types of the SPN block cipher core: bytes, 32-bit words, and the fixed-size sequences the
rules speak of (00_scope.md R7, R11, R12, R13; 10_state.md R32, R33, R35, R40). Only type names stand here; packing,
byte order and every computation are in Machine/. -/

namespace Sys2Proof

/-- A byte, 8 bits (R11). -/
abbrev Byte := BitVec 8

/-- A word, 32 bits, bit 0 least significant (R11). -/
abbrev Word := BitVec 32

/-- A 4-bit opcode or error code: `OPL`, `ECL`, `ERRCODE` (R25, R40, R70). -/
abbrev Nibble := BitVec 4

/-- A 28-bit block count or block index: `NBL`, `lo_w`, `hi_w`, `nx_w` (R40). -/
abbrev BlockIndex := BitVec 28

/-- A block: 16 bytes `b[0..15]` in buffer order, the 4×4 column-major state matrix (R12, R13). -/
abbrev Block := Vector Byte 16

/-- A key: 16 bytes `k[0..15]` (R7, R32). -/
abbrev Key := Vector Byte 16

/-- Four words: KEY0..KEY3 or BLK0..BLK3 (R32, R33). -/
abbrev Quad := Vector Word 4

/-- The round-key file RK[0..43]: 11 round keys of four words (R7, R35). -/
abbrev Schedule := Vector Word 44

end Sys2Proof
end

