-- ==== Sys2Proof/Machine/Packing.lean ====
section
/-! DEFINITION. Bytes and words, blocks and matrices (00_scope.md R12, R13): the one place where byte order is
decided. -/

namespace Sys2Proof.Machine

/-- R12: `word(a,b,c,d) = (a << 24) | (b << 16) | (c << 8) | d`, most significant byte first. -/
def wordOf (a b c d : Byte) : Word :=
  a.setWidth 32 <<< 24 ||| b.setWidth 32 <<< 16 ||| c.setWidth 32 <<< 8 ||| d.setWidth 32

/-- R12: byte i of `bytes(w) = [w[31:24], w[23:16], w[15:8], w[7:0]]`. -/
def byteOf (w : Word) (i : Fin 4) : Byte := w.extractLsb' (24 - 8 * i.val) 8

/-- R13: the byte in row r, column c: `s[r][c] = b[r + 4c]`. -/
def cell (s : Block) (r c : Fin 4) : Byte := s[r.val + 4 * c.val]

/-- R13: the block with the given bytes in its rows and columns, in buffer order. -/
def tabulate (f : Fin 4 → Fin 4 → Byte) : Block :=
  #v[f 0 0, f 1 0, f 2 0, f 3 0,
     f 0 1, f 1 1, f 2 1, f 3 1,
     f 0 2, f 1 2, f 2 2, f 3 2,
     f 0 3, f 1 3, f 2 3, f 3 3]

/-- R12, R13: word j of a block, which is its column j, top row first. -/
def columnWord (b : Block) (j : Fin 4) : Word :=
  wordOf (cell b 0 j) (cell b 1 j) (cell b 2 j) (cell b 3 j)

/-- R32, R33: the 16 bytes of four words, word 0 first. -/
def blockOfQuad (q : Quad) : Block := tabulate fun r c => byteOf q[c] r

/-- R33: the four words of 16 bytes. -/
def quadOfBlock (b : Block) : Quad :=
  #v[columnWord b 0, columnWord b 1, columnWord b 2, columnWord b 3]

end Sys2Proof.Machine
end

