-- ==== Sys2Proof/Machine/Field.lean ====
section
/-! DEFINITION. Arithmetic in GF(2^8) (41_round_transforms.md R95 to R98). Addition is `^^^` (R95). -/

namespace Sys2Proof.Machine

/-- R97: `xtime(a) = (a << 1)[7:0] ⊕ (0x1b if a[7] = 1)`. -/
def xtime (a : Byte) : Byte := (a <<< 1) ^^^ (if a.getLsbD 7 then 0x1b else 0x00)

/-- The sum, over the low `n` bits i of b, of `a • x^i` where b has bit i. -/
def gmulBits : Nat → Byte → Byte → Byte
  | 0, _, _ => 0
  | n + 1, a, b => (if b.getLsbD 0 then a else 0) ^^^ gmulBits n (xtime a) (b >>> 1)

/-- R96: the field product `a • b`, polynomial product reduced modulo x^8 + x^4 + x^3 + x + 1. -/
def gmul (a b : Byte) : Byte := gmulBits 8 a b

/-- The 256 bytes, in ascending order. -/
def allBytes : List Byte := (List.range 256).map (BitVec.ofNat 8)

/-- R98: `inv(a)` is the byte b with a • b = 0x01, and `inv(0x00) = 0x00`. -/
def ginv (a : Byte) : Byte := (allBytes.find? fun b => gmul a b == 0x01).getD 0x00

end Sys2Proof.Machine
end

