-- ==== Sys2Proof/Machine/Rounds.lean ====
section
/-! DEFINITION. The round transforms and their inverses (41_round_transforms.md R102 to R108), as functions of the
column-major state matrix (00_scope.md R13). Row and column numbers are taken modulo 4 (`Fin 4`). -/

namespace Sys2Proof.Machine

/-- R102: each byte by the S-box. -/
def subBytes (s : Block) : Block := tabulate fun r c => sbox (cell s r c)

/-- R103: each byte by the inverse S-box. -/
def invSubBytes (s : Block) : Block := tabulate fun r c => invSbox (cell s r c)

/-- R104: `ShiftRows(s)[r][c] = s[r][(c + r) mod 4]`. -/
def shiftRows (s : Block) : Block := tabulate fun r c => cell s r (c + r)

/-- R105: `InvShiftRows(s)[r][(c + r) mod 4] = s[r][c]`. -/
def invShiftRows (s : Block) : Block := tabulate fun r c => cell s r (c - r)

/-- R106: row r of MixColumns of the column (a0, a1, a2, a3). -/
def mixRow (r : Fin 4) (a0 a1 a2 a3 : Byte) : Byte :=
  match r with
  | 0 => gmul 0x02 a0 ^^^ gmul 0x03 a1 ^^^ a2 ^^^ a3
  | 1 => a0 ^^^ gmul 0x02 a1 ^^^ gmul 0x03 a2 ^^^ a3
  | 2 => a0 ^^^ a1 ^^^ gmul 0x02 a2 ^^^ gmul 0x03 a3
  | 3 => gmul 0x03 a0 ^^^ a1 ^^^ a2 ^^^ gmul 0x02 a3

/-- R107: row r of InvMixColumns of the column (a0, a1, a2, a3). -/
def invMixRow (r : Fin 4) (a0 a1 a2 a3 : Byte) : Byte :=
  match r with
  | 0 => gmul 0x0e a0 ^^^ gmul 0x0b a1 ^^^ gmul 0x0d a2 ^^^ gmul 0x09 a3
  | 1 => gmul 0x09 a0 ^^^ gmul 0x0e a1 ^^^ gmul 0x0b a2 ^^^ gmul 0x0d a3
  | 2 => gmul 0x0d a0 ^^^ gmul 0x09 a1 ^^^ gmul 0x0e a2 ^^^ gmul 0x0b a3
  | 3 => gmul 0x0b a0 ^^^ gmul 0x0d a1 ^^^ gmul 0x09 a2 ^^^ gmul 0x0e a3

/-- R106: MixColumns, column by column. -/
def mixColumns (s : Block) : Block :=
  tabulate fun r c => mixRow r (cell s 0 c) (cell s 1 c) (cell s 2 c) (cell s 3 c)

/-- R107: InvMixColumns, column by column. -/
def invMixColumns (s : Block) : Block :=
  tabulate fun r c => invMixRow r (cell s 0 c) (cell s 1 c) (cell s 2 c) (cell s 3 c)

/-- R35, R108: word c of round key n of a schedule, `w[4n + c]`. -/
def roundKeyWord (w : Schedule) (n : Fin 11) (c : Fin 4) : Word := w[4 * n.val + c.val]

/-- R108: column c of the state XORed with the big-endian bytes of `w[4n + c]`. -/
def addRoundKey (s : Block) (w : Schedule) (n : Fin 11) : Block :=
  tabulate fun r c => cell s r c ^^^ byteOf (roundKeyWord w n c) r

end Sys2Proof.Machine
end

