-- ==== Sys2Proof/Machine/Cipher.lean ====
section
/-! DEFINITION. The two cipher functions (42_block_cipher.md R115, R116). -/

namespace Sys2Proof.Machine

/-- R115: one full round, substitution, row shift, column mixing, key mixing. -/
def fullRound (w : Schedule) (s : Block) (n : Fin 11) : Block :=
  addRoundKey (mixColumns (shiftRows (subBytes s))) w n

/-- R116: one full round undone, row shift, substitution, key mixing, column mixing. -/
def invFullRound (w : Schedule) (s : Block) (n : Fin 11) : Block :=
  invMixColumns (addRoundKey (invSubBytes (invShiftRows s)) w n)

/-- R115: rounds 1 to 9, ascending. -/
def fullRounds : List (Fin 11) := [1, 2, 3, 4, 5, 6, 7, 8, 9]

/-- R115: encryptBlock. -/
def encryptBlock (w : Schedule) (b : Block) : Block :=
  let s := fullRounds.foldl (fullRound w) (addRoundKey b w 0)
  addRoundKey (shiftRows (subBytes s)) w 10

/-- R116: decryptBlock. -/
def decryptBlock (w : Schedule) (c : Block) : Block :=
  let s := fullRounds.reverse.foldl (invFullRound w) (addRoundKey c w 10)
  addRoundKey (invSubBytes (invShiftRows s)) w 0

end Sys2Proof.Machine
end

