-- ==== Sys2Proof/Config.lean ====
section
/-! DEFINITION. What the platform fixes for one build of the core (the OPEN parameters P, A, BASE and MemOK of
00_scope.md R8 to R10 and 92_eei_decisions.md), and the free values the spec leaves open (10_state.md R33,
70_reset_and_hazards.md R171). The parameters are plain data that State carries and no step changes, so every
statement about all states is a statement about all builds (log entry 2). -/

namespace Sys2Proof

/-- A range `[lo, hi)` of data-memory byte addresses that the platform's MemOK rejects (R10). -/
structure Hole where
  lo : Nat
  hi : Nat
deriving DecidableEq, Repr

/-- The OPEN parameters of one build. `numWorkers` is P (R8), `addrWidth` is A (R9), `base` is BASE (R10), and
`holes` lists the addresses at which MemOK is false (R10): a finite list of ranges spells every predicate on the
2^A addresses, in plain data. -/
structure Platform where
  numWorkers : Nat
  addrWidth  : Nat
  base       : Nat
  holes      : List Hole
deriving DecidableEq, Repr

/-- The parameters of `State.reset`. A = 32 is the spec's default (R9). DESIGN CHOICE (log entry 2): P = 4, BASE = 0
and MemOK true everywhere, the values of the spec's own examples (95_test_vectors.md section 4); every other build is
the same state with another `platform`. -/
def Platform.default : Platform :=
  { numWorkers := 4, addrWidth := 32, base := 0, holes := [] }

namespace Config

/-- The value drawn by a host read of BLKj while ENCB or DECB is in progress: any 32-bit value (R33, R175).
A FREE VALUE: it has no body, so nothing can be proved of it. Applied to the draw counter of State. -/
opaque freeWord : Nat → Word

/-- The value drawn for a buffer byte by a reset during an ECB command: any byte (R171). A FREE VALUE, as above. -/
opaque freeByte : Nat → Byte

end Config

end Sys2Proof
end

