-- ==== Sys2Proof/Syntax.lean ====
section
/-! DEFINITION. The commands of the core, one constructor per row of spec/opcode_table.json, and the one 32-bit
command format (30_encoding.md R70, R72). A command has no register number, no immediate and no mode bit (R70, R73),
so no constructor has an argument. -/

namespace Sys2Proof

/-- The eight commands (R72). The core's "instruction" is a command word the host writes to CMD (R19). -/
inductive Instr where
  /-- NOP, OP 0x0 (R145). -/
  | nop
  /-- KEYEXP, OP 0x1 (R92). -/
  | keyexp
  /-- ENCB, OP 0x2 (R118). -/
  | encb
  /-- DECB, OP 0x3 (R119). -/
  | decb
  /-- ECBE, OP 0x4 (R137). -/
  | ecbe
  /-- ECBEP, OP 0x5 (R138). -/
  | ecbep
  /-- ECBD, OP 0x6 (R139). -/
  | ecbd
  /-- ZEROIZE, OP 0x8 (R146). -/
  | zeroize
deriving DecidableEq, Repr

/-- The fields of a command word (R70): OP in bits 3:0, RSV in bits 31:4. -/
structure CmdWord where
  op  : Nibble
  rsv : BitVec 28
deriving DecidableEq, Repr

end Sys2Proof
end

