-- ==== Sys2Proof/Machine/HostSyntax.lean ====
section
/-! DEFINITION. The host's side as plain data: the register names of the window (10_state.md R21) and the syntax of
host programs (30_encoding.md R76, R77). Variable names and labels are numbers (log entry 11). -/

namespace Sys2Proof.Machine

/-- The names of the register window (R21). Reserved offsets have no name. -/
inductive Reg where
  /-- CMD, offset 0x00 (R24). -/
  | cmd
  /-- STATUS, offset 0x04 (R25). -/
  | status
  /-- CONFIG, offset 0x08 (R29). -/
  | config
  /-- ADDR, offset 0x0C (R30). -/
  | addr
  /-- LEN, offset 0x10 (R31). -/
  | len
  /-- KEY0..KEY3, offsets 0x20 to 0x2C (R32). -/
  | key (j : Fin 4)
  /-- BLK0..BLK3, offsets 0x30 to 0x3C (R33). -/
  | blk (j : Fin 4)
deriving DecidableEq, Repr

/-- One host operation (R76). -/
inductive HostOp where
  /-- `WR reg, value`: host write of a 32-bit value to a register. -/
  | wr (r : Reg) (v : Word)
  /-- `RD reg -> x`: host read of a register into the word variable x. -/
  | rd (r : Reg) (x : Nat)
  /-- `MWR addr, bytes`: host writes of a byte string to data memory, ascending. -/
  | mwr (a : Nat) (bs : List Byte)
  /-- `MRD addr, n -> y`: host reads of n bytes of data memory into the byte-string variable y (of a name space of its
  own: DESIGN CHOICE, log entry 11). -/
  | mrd (a n y : Nat)
  /-- `BNZ x, bit, label`: host branch to label if that bit of the word variable x is 1. DESIGN CHOICE (log entry 11): it
  tests a word variable only, never what an MRD set. -/
  | bnz (x bit label : Nat)
deriving DecidableEq, Repr

/-- One line of a host program: an optional label and an operation (R76). -/
structure HostLine where
  label : Option Nat
  op    : HostOp
deriving DecidableEq, Repr

/-- The pseudo-operations (R77), and a plain line, which stands for itself. DESIGN CHOICE (log entry 11): only a plain
line carries a label of R76; the spec does not say whether a pseudo-operation may. -/
inductive PseudoOp where
  /-- A line that needs no expansion. -/
  | line (l : HostLine)
  /-- `POLL -> x`. -/
  | poll (x : Nat)
  /-- `<MNEMONIC>`: issue the command and poll into `st`. -/
  | command (i : Instr)
  /-- `SETKEY k[0..15]`. -/
  | setKey (k : Key)
  /-- `SETBLK b[0..15]`. -/
  | setBlk (b : Block)
  /-- `GETBLK -> v0,v1,v2,v3`. -/
  | getBlk (v0 v1 v2 v3 : Nat)
  /-- `SETBUF a, n`. -/
  | setBuf (a n : Word)
deriving DecidableEq, Repr

end Sys2Proof.Machine
end

