-- ==== Sys2Proof/WellFormed.lean ====
section
/-! DEFINITION. The checks on terms. An `Instr` has no operand (30_encoding.md R70), so every `Instr` is well formed
and needs no check; what can be ill formed is a command word (R70, R71), a platform's parameters (00_scope.md R8 to
R10) and a host program (R76). -/

namespace Sys2Proof

/-- R71: the opcodes that spell a command when RSV is 0: all but 0x7 and 0x9..0xF. -/
def CmdWord.opNamed (c : CmdWord) : Bool :=
  c.op.toNat ≤ 8 && c.op.toNat ≠ 7

/-- R70, R71: a command word is well formed when RSV is 0 and OP names a command. -/
def CmdWord.wf (c : CmdWord) : Bool :=
  c.rsv == 0 && c.opNamed

/-- R8: 1 ≤ P ≤ 255. -/
def Platform.workersOk (p : Platform) : Bool := 1 ≤ p.numWorkers && p.numWorkers ≤ 255

/-- R9: 1 ≤ A ≤ 32. -/
def Platform.widthOk (p : Platform) : Bool := 1 ≤ p.addrWidth && p.addrWidth ≤ 32

/-- 92_eei_decisions.md, OPEN parameters: BASE is 256-byte aligned. -/
def Platform.baseOk (p : Platform) : Bool := p.base % 256 == 0

/-- The constraints the spec puts on a build's parameters. -/
def Platform.wf (p : Platform) : Bool := p.workersOk && p.widthOk && p.baseOk

namespace Machine

/-- The labels of a host program, in line order. -/
def labelsOf (prog : List HostLine) : List Nat := prog.filterMap (·.label)

/-- R76: a label names one line only. -/
def labelsDistinct (prog : List HostLine) : Bool := decide (labelsOf prog).Nodup

/-- R76: a branch tests a bit of a 32-bit variable and names a label of the program. -/
def branchOk (prog : List HostLine) : HostLine → Bool
  | { op := .bnz _ bit l, .. } => decide (bit < 32) && decide (l ∈ labelsOf prog)
  | _ => true

/-- A host program is well formed when its labels are distinct and its branches name them. -/
def hostProgramWf (prog : List HostLine) : Bool :=
  labelsDistinct prog && prog.all (branchOk prog)

end Machine

end Sys2Proof
end

