-- ==== Sys2Proof/Decode.lean ====
section
/-! DEFINITION. Decoding of a command word (30_encoding.md R70 to R75), total on every 32-bit word and rejecting by
name, and after it the encoder, from the same map (R72). -/

namespace Sys2Proof

/-- Why a word spells no command (R71, R74). Every such word is accepted and ends with error ILLEGAL (R150). -/
inductive IllegalWord where
  /-- `v[31:4] ≠ 0`. -/
  | reservedBits
  /-- `v[31:4] = 0` and `v[3:0]` is 0x7 or lies in 0x9..0xF. -/
  | reservedOpcode
deriving DecidableEq, Repr

/-- What a word decodes to (R71): one command of R72, or ILLEGAL with the reason. -/
inductive Decoded where
  | command (i : Instr)
  | illegal (why : IllegalWord)
deriving DecidableEq, Repr

/-- R70: the fields of a command word. -/
def CmdWord.ofWord (v : Word) : CmdWord :=
  { op := v.extractLsb' 0 4, rsv := v.extractLsb' 4 28 }

/-- R70: the word of the fields, RSV above OP. -/
def CmdWord.toWord (c : CmdWord) : Word := c.rsv.setWidth 32 <<< 4 ||| c.op.setWidth 32

/-- R72: the opcode map. -/
def Instr.ofOpcode (op : Nibble) : Option Instr :=
  match op.toNat with
  | 0x0 => some .nop
  | 0x1 => some .keyexp
  | 0x2 => some .encb
  | 0x3 => some .decb
  | 0x4 => some .ecbe
  | 0x5 => some .ecbep
  | 0x6 => some .ecbd
  | 0x8 => some .zeroize
  | _   => none

/-- R71: the fields of a word spell a command when RSV is 0 and OP names one. -/
def decodeFields (c : CmdWord) : Decoded :=
  if c.rsv = 0 then
    match Instr.ofOpcode c.op with
    | some i => .command i
    | none   => .illegal .reservedOpcode
  else .illegal .reservedBits

/-- R71: decoding is total; a word is one command or ILLEGAL. -/
def decode (v : Word) : Decoded := decodeFields (CmdWord.ofWord v)

/-- The instruction a word spells, if it spells one. -/
def Decoded.toOption : Decoded → Option Instr
  | .command i => some i
  | .illegal _ => none

/-- The instruction the decoder reads from a table word of `nbits` bits (every bit above them 0). A command is one
32-bit word (R75), written to CMD whole, so no byte order is involved. -/
def decodeTableWord (nbits w : Nat) : Option Instr :=
  (decode (BitVec.ofNat 32 (w % 2 ^ nbits))).toOption

/-- R72: the opcode of a command. -/
def Instr.opcode : Instr → Nibble
  | .nop     => 0x0
  | .keyexp  => 0x1
  | .encb    => 0x2
  | .decb    => 0x3
  | .ecbe    => 0x4
  | .ecbep   => 0x5
  | .ecbd    => 0x6
  | .zeroize => 0x8

/-- R72: the command word, OP zero-extended to 32 bits. -/
def encode (i : Instr) : Word := CmdWord.toWord { op := i.opcode, rsv := 0 }

end Sys2Proof
end

