-- ==== Sys2Proof/Machine/State.lean ====
section
/-! DEFINITION. The state of the machine as plain data (10_state.md), the reasons a step can stop, and the state right
after reset (10_state.md R44). A register the spec gives one storage has one field; STATUS, CONFIG and the KEY, BLK and
CMD reads are computed from these fields (Flags.lean, Operands.lean). -/

namespace Sys2Proof.Machine

/-- Why a step stops with a fault. -/
inductive Fault where
  /-- HostAccessFault (R22, R159): raised by a host access to the register window (Bus.lean) of a width other than 32
  bits or at an address that is no multiple of 4. Safe: the spec names this fault and says it refutes every claim
  about the run. -/
  | hostAccess (addr width : Nat)
  /-- BufferRace (R177, R159): raised by a host access (Bus.lean) to a byte of the buffer of an ECB command in
  progress. Safe: the spec names this fault. -/
  | bufferRace (addr : Nat)
  /-- An access to a data-memory address at or above 2^A, which does not exist (R42): raised by a host access
  (Bus.lean), and by a worker's block step (Ops.lean) in states no run reaches. Safe: the model stops. Log entry 6. -/
  | noSuchAddress (addr : Nat)
deriving DecidableEq, Repr

/-- Why a step is refused. -/
inductive Refusal where
  /-- The instruction has no meaning yet. Raised by no arm of this model. Safe: the model stops. -/
  | notModelled (mnemonic : String)
  /-- A host access at an address outside the core's register window: another device's, which the spec does not
  describe. Raised by Bus.lean. Safe: the model stops. Log entry 7. -/
  | outsideWindow (addr : Nat)
  /-- A host program branches to a label it does not have (R76; `hostProgramWf` rules it out). Raised by
  HostProgram.lean. Safe: the model stops. Log entry 11. -/
  | undefinedLabel (label : Nat)
deriving DecidableEq, Repr

/-- The agents (R18). -/
inductive Agent where
  | host
  | controller
  | worker (w : Nat)
deriving DecidableEq, Repr

/-- What can happen next (log entry 3). Widths are in bits; `var` names the host variable a read's result goes to. -/
inductive Event where
  /-- A host write of `data` at an address of the host's address space (R21, R22). -/
  | busWrite (addr width : Nat) (data : Word)
  /-- A host read at an address of the host's address space, into a word variable (R21, R22). -/
  | busRead (addr width var : Nat)
  /-- A host write of one byte of data memory (R42). -/
  | memWrite (addr : Nat) (b : Byte)
  /-- A host read of one byte of data memory, appended to a byte-string variable (R42). -/
  | memRead (addr var : Nat)
  /-- The host takes the next action of its program (R76). -/
  | program
  /-- The controller's step, if it has one (R143). -/
  | controller
  /-- Worker w's step, if it has one (R133). -/
  | worker (w : Nat)
  /-- The reset input (R170). -/
  | reset
deriving DecidableEq, Repr

/-- The fields of STATUS that have storage of their own (R25). STATUS.KV is `State.kv` (R28); bits 31:9 read 0 (R23). -/
structure Status where
  busy    : Bool
  done    : Bool
  err     : Bool
  errcode : Nibble
  wign    : Bool
deriving DecidableEq, Repr

/-- One worker's range and progress, `[lo, hi)` and `nx` (R40). -/
structure Worker where
  lo : BlockIndex
  hi : BlockIndex
  nx : BlockIndex
deriving DecidableEq, Repr

/-- The host agent (R76): its program, the line it is at, how many bytes of an MWR or MRD it has moved, and its word
and byte-string variables (sorted by number; a variable at its initial value is not listed). DESIGN CHOICE (log entry 11):
the spec has one kind of variable; here what RD sets and what MRD sets are two name spaces. -/
structure HostState where
  prog     : List HostLine
  pc       : Nat
  moved    : Nat
  wordVars : List (Nat × Word)
  byteVars : List (Nat × List Byte)
deriving DecidableEq, Repr

/-- The whole machine. -/
structure State where
  /-- P, A, BASE, MemOK (R8, R9, R10): no step changes them. -/
  platform : Platform
  /-- STATUS without KV (R25). -/
  status   : Status
  /-- The schedule-valid bit KV (R36). -/
  kv       : Bool
  /-- ADDR (R30). -/
  addr     : Word
  /-- LEN (R31). -/
  len      : Word
  /-- KEY0..KEY3 (R32). -/
  key      : Quad
  /-- BLK0..BLK3 (R33). -/
  blk      : Quad
  /-- RK[0..43] (R35). -/
  rk       : Schedule
  /-- OPL, the opcode of the command in progress (R40). -/
  opl      : Nibble
  /-- ECL, the error code decided at acceptance (R40). -/
  ecl      : Nibble
  /-- ADDRL, ADDR latched at acceptance (R40). -/
  addrl    : Word
  /-- NBL, the number of blocks (R40). -/
  nbl      : BlockIndex
  /-- lo_w, hi_w, nx_w for w = 0..P−1 (R40). -/
  workers  : List Worker
  /-- The data memory M (R42), in the canonical form of `Memory.wf`. -/
  mem      : List Host.Cell
  /-- The model's own: the events to come, first first (log entry 3). -/
  inputs   : List Event
  /-- The model's own: the agent whose step is being taken (log entry 1). -/
  turn     : Agent
  /-- The model's own: the counter the free values are applied to (log entry 9). -/
  draws    : Nat
  /-- The host agent (R18, R76). -/
  host     : HostState
deriving DecidableEq, Repr

/-- R40, R44: a worker with an empty range. -/
def Worker.idle : Worker := { lo := 0, hi := 0, nx := 0 }

/-- R44: STATUS after reset. -/
def Status.reset : Status := { busy := false, done := false, err := false, errcode := 0, wign := false }

/-- The host before it is given a program (log entry 11). -/
def HostState.initial : HostState := { prog := [], pc := 0, moved := 0, wordVars := [], byteVars := [] }

/-- The machine right after reset (R44, R170): every register 0, KV 0, every worker range empty, nothing in memory
(log entry 5), no event to come. -/
def State.reset : State where
  platform := Platform.default
  status   := Status.reset
  kv       := false
  addr     := 0
  len      := 0
  key      := Vector.replicate 4 0
  blk      := Vector.replicate 4 0
  rk       := Vector.replicate 44 0
  opl      := 0
  ecl      := 0
  addrl    := 0
  nbl      := 0
  workers  := List.replicate Platform.default.numWorkers Worker.idle
  mem      := []
  inputs   := []
  turn     := .host
  draws    := 0
  host     := HostState.initial

namespace State

/-! Named updates. -/

/-- STATUS (R25). -/
def setStatus (s : State) (x : Status) : State := { s with status := x }
/-- ADDR (R30). -/
def setAddr (s : State) (v : Word) : State := { s with addr := v }
/-- LEN (R31). -/
def setLen (s : State) (v : Word) : State := { s with len := v }
/-- KEY0..KEY3 and, with them, KV (R32, R36). -/
def setKey (s : State) (k : Quad) (valid : Bool) : State := { s with key := k, kv := valid }
/-- BLK0..BLK3 (R33). -/
def setBlk (s : State) (b : Quad) : State := { s with blk := b }
/-- RK and KV (R35, R36). -/
def setSchedule (s : State) (w : Schedule) (valid : Bool) : State := { s with rk := w, kv := valid }
/-- The hidden latches written at acceptance (R40, R142). -/
def setLatches (s : State) (op e : Nibble) (a : Word) (n : BlockIndex) (ws : List Worker) : State :=
  { s with opl := op, ecl := e, addrl := a, nbl := n, workers := ws }
/-- The workers' ranges and progress (R40). -/
def setWorkers (s : State) (ws : List Worker) : State := { s with workers := ws }
/-- Data memory (R42). -/
def setMem (s : State) (m : List Host.Cell) : State := { s with mem := m }
/-- The events to come. -/
def setInputs (s : State) (es : List Event) : State := { s with inputs := es }
/-- The agent whose step is being taken. -/
def setTurn (s : State) (a : Agent) : State := { s with turn := a }
/-- The draw counter. -/
def setDraws (s : State) (n : Nat) : State := { s with draws := n }
/-- The host agent. -/
def setHost (s : State) (h : HostState) : State := { s with host := h }

end State

end Sys2Proof.Machine
end

