-- ==== Sys2Proof/Machine/Flags.lean ====
section
/-! DEFINITION. The status register and the constant register as words, and every change of a status flag
(10_state.md R25 to R29, R34; 44_control.md R142, R143). -/

namespace Sys2Proof.Machine

/-- R25, R28: the value of STATUS. WIGN is bit 8, ERRCODE bits 7:4, KV bit 3, ERR bit 2, DONE bit 1, BUSY bit 0; bits
31:9 are 0. -/
def statusWord (s : State) : Word :=
  (BitVec.ofBool s.status.wign).setWidth 32 <<< 8 ||| s.status.errcode.setWidth 32 <<< 4 |||
    (BitVec.ofBool s.kv).setWidth 32 <<< 3 ||| (BitVec.ofBool s.status.err).setWidth 32 <<< 2 |||
    (BitVec.ofBool s.status.done).setWidth 32 <<< 1 ||| (BitVec.ofBool s.status.busy).setWidth 32

/-- R29: the value of CONFIG. NKW = 4 in bits 31:24, NR = 0x0A in bits 23:16, BLKB = 0x10 in bits 15:8, NW = P in bits
7:0. -/
def configWord (p : Platform) : Word :=
  0x04#32 <<< 24 ||| 0x0A#32 <<< 16 ||| 0x10#32 <<< 8 ||| (BitVec.ofNat 8 p.numWorkers).setWidth 32

/-- R142: the status fields at acceptance. -/
def Status.accepted : Status := { busy := true, done := false, err := false, errcode := 0, wign := false }

/-- R143: completion without error, DONE <- 1 and BUSY <- 0. -/
def Status.completed (x : Status) : Status := { x with done := true, busy := false }

/-- R143, R155: completion with an error, ERR <- 1, ERRCODE <- code and BUSY <- 0. -/
def Status.failed (x : Status) (code : Nibble) : Status :=
  { x with err := true, errcode := code, busy := false }

/-- R34: a write was ignored, WIGN <- 1. -/
def Status.writeIgnored (x : Status) : Status := { x with wign := true }

/-- R150 to R153: the error codes; 0 is no error. -/
def codeNone : Nibble := 0
def codeIllegal : Nibble := 1
def codeNoKey : Nibble := 2
def codeLength : Nibble := 3
def codeRange : Nibble := 4

end Sys2Proof.Machine
end

