-- ==== Sys2Proof/Machine/Operands.lean ====
section
/-! DEFINITION. Where a command's operands come from (30_encoding.md R73): the key and block registers, the buffer
in data memory, and the offsets and readable values of the register window (10_state.md R21 to R33). -/

namespace Sys2Proof.Machine

/-- R92: the key bytes held in KEY0..KEY3. -/
def State.keyBytes (s : State) : Key := blockOfQuad s.key

/-- R118, R119: the block bytes held in BLK0..BLK3. -/
def State.block (s : State) : Block := blockOfQuad s.blk

/-- R151: the commands that read RK and need KV = 1. -/
def readsSchedule : Instr → Bool
  | .nop | .keyexp | .zeroize => false
  | .encb | .decb | .ecbe | .ecbep | .ecbd => true

/-- R133, R143: the commands whose work is done by the workers on a buffer. -/
def usesBuffer : Instr → Bool
  | .nop | .keyexp | .zeroize | .encb | .decb => false
  | .ecbe | .ecbep | .ecbd => true

/-- R33, R175: the commands whose operand is the block register. -/
def usesBlockRegister : Instr → Bool
  | .encb | .decb => true
  | .nop | .keyexp | .zeroize | .ecbe | .ecbep | .ecbd => false

/-- Whether an opcode names a command with the property. -/
def opcodeIs (p : Instr → Bool) (op : Nibble) : Bool := (Instr.ofOpcode op).any p

/-- R129: the number of blocks of a buffer, LEN div 16. -/
def blockCount (len : Word) : BlockIndex := BitVec.ofNat 28 (len.toNat / 16)

/-- R50, R134: the address of block i, `ADDRL + 16·i`, exact. -/
def blockAddress (addrl : Word) (i : BlockIndex) : Nat := addrl.toNat + 16 * i.toNat

/-- R9, R42: the size of the data memory, 2^A. -/
def memorySize (p : Platform) : Nat := 2 ^ p.addrWidth

/-- R10: MemOK, whether the core may access a byte address. -/
def memOK (p : Platform) (a : Nat) : Bool := p.holes.all fun h => !(decide (h.lo ≤ a) && decide (a < h.hi))

/-- R127: whether MemOK holds at every address a with `lo ≤ a < hi`: no hole overlaps the range. -/
def rangeOK (p : Platform) (lo hi : Nat) : Bool := p.holes.all fun h => decide (min h.hi hi ≤ max h.lo lo)

/-- R127: the RANGE check fails. -/
def outOfRange (p : Platform) (addr len : Word) : Bool :=
  decide (memorySize p < addr.toNat + len.toNat) || !rangeOK p addr.toNat (addr.toNat + len.toNat)

/-- R177: the buffer `[ADDRL, ADDRL + 16·n)` of the ECB command in progress holds the address. With an error decided at
acceptance n is 0 (R142), so the buffer is empty. -/
def inBuffer (s : State) (a : Nat) : Bool :=
  s.status.busy && opcodeIs usesBuffer s.opl &&
    decide (s.addrl.toNat ≤ a) && decide (a < s.addrl.toNat + 16 * s.nbl.toNat)

/-- R33, R175: ENCB or DECB is in progress, so BLK reads are free draws. DEDUCED (log entry 8): a word that spells no
command is not one of them, whatever its low four bits. -/
def blockRegisterBusy (s : State) : Bool :=
  s.status.busy && opcodeIs usesBlockRegister s.opl && s.ecl != codeIllegal

/-- R21: the offset of a register in the window. -/
def Reg.offset : Reg → Nat
  | .cmd    => 0x00
  | .status => 0x04
  | .config => 0x08
  | .addr   => 0x0C
  | .len    => 0x10
  | .key j  => 0x20 + 4 * j.val
  | .blk j  => 0x30 + 4 * j.val

/-- R21: the register at an offset, none where the offset is reserved. -/
def Reg.atOffset (o : Nat) : Option Reg :=
  match o with
  | 0x00 => some .cmd
  | 0x04 => some .status
  | 0x08 => some .config
  | 0x0C => some .addr
  | 0x10 => some .len
  | 0x20 => some (.key 0)
  | 0x24 => some (.key 1)
  | 0x28 => some (.key 2)
  | 0x2C => some (.key 3)
  | 0x30 => some (.blk 0)
  | 0x34 => some (.blk 1)
  | 0x38 => some (.blk 2)
  | 0x3C => some (.blk 3)
  | _    => none

/-- R23 to R33: what a host read of a register returns, and the state after it. Only a BLK read during ENCB or DECB
differs from the word held: it draws a free value (R33). CMD and KEY0..KEY3 read 0 (R24, R32). -/
def readReg (r : Reg) (s : State) : Word × State :=
  match r with
  | .cmd    => (0, s)
  | .status => (statusWord s, s)
  | .config => (configWord s.platform, s)
  | .addr   => (s.addr, s)
  | .len    => (s.len, s)
  | .key _  => (0, s)
  | .blk j  =>
    if blockRegisterBusy s then (Config.freeWord s.draws, s.setDraws (s.draws + 1)) else (s.blk[j], s)

/-- R23: a read of a reserved offset returns 0. -/
def readWindow (r : Option Reg) (s : State) : Word × State :=
  match r with
  | some r => readReg r s
  | none   => (0, s)

/-- R30 to R33: the accepted write of an operand register. A KEYj write clears KV (R32). CMD, STATUS and CONFIG hold
nothing a write stores. -/
def storeReg (r : Reg) (v : Word) (s : State) : State :=
  match r with
  | .addr  => s.setAddr v
  | .len   => s.setLen v
  | .key j => s.setKey (s.key.set j v) false
  | .blk j => s.setBlk (s.blk.set j v)
  | .cmd | .status | .config => s

end Sys2Proof.Machine
end

