-- ==== Sys2Proof/Machine/Ops.lean ====
section
/-! DEFINITION. The operations the commands share: data memory (00_scope.md R15, 10_state.md R42), acceptance and
its checks (44_control.md R142, 60_exceptions.md R157), the assignment of block ranges (43_ecb_mode.md R130, R131), the
workers' block step (R134), error entry (60_exceptions.md R155) and completion (44_control.md R143). -/

namespace Sys2Proof.Machine

/-! ### Data memory: byte cells sorted by address, none equal to the byte an unlisted address reads as. -/

/-- What an address nothing has written reads as. DESIGN CHOICE (log entry 5): 0x00; the spec gives M no first contents. -/
def unlistedByte : Byte := 0x00

/-- The byte at an address (R15). -/
def memRead : List Host.Cell → Nat → Byte
  | [], _ => unlistedByte
  | (k, v) :: m, a => if a = k then v else memRead m a

/-- The cell of an address, or nothing where the byte is the one an unlisted address reads as. -/
def cellOf (a : Nat) (b : Byte) : List Host.Cell := if b = unlistedByte then [] else [(a, b)]

/-- Memory with one byte stored (R15), in canonical form. -/
def memWrite : List Host.Cell → Nat → Byte → List Host.Cell
  | [], a, b => cellOf a b
  | (k, v) :: m, a, b =>
    if a < k then cellOf a b ++ (k, v) :: m
    else if a = k then cellOf a b ++ m
    else (k, v) :: memWrite m a b

/-- The canonical form: addresses strictly rising, and no entry equal to what an unlisted address reads as. -/
abbrev Memory.wf (m : List Host.Cell) : Prop :=
  m.Pairwise (fun c d => c.1 < d.1) ∧ ∀ c ∈ m, c.2 ≠ unlistedByte

/-- R15: `MemWrite(a, n, v)`, ascending. -/
def writeBytes : List Host.Cell → Nat → List Byte → List Host.Cell
  | m, _, [] => m
  | m, a, b :: bs => writeBytes (memWrite m a b) (a + 1) bs

/-- R15, R50: `MemRead(a, 16)`. -/
def readBlock (m : List Host.Cell) (a : Nat) : Block :=
  tabulate fun r c => memRead m (a + (r.val + 4 * c.val))

/-- R134: `MemWrite(a, 16, b)`. -/
def writeBlock (m : List Host.Cell) (a : Nat) (b : Block) : List Host.Cell := writeBytes m a b.toList

/-- R171: memory with the n bytes from a drawn freely, by draws d, d+1, ... -/
def drawBytes (m : List Host.Cell) (a : Nat) (d : Nat) : Nat → List Host.Cell
  | 0 => m
  | n + 1 => memWrite (drawBytes m a d n) (a + n) (Config.freeByte (d + n))

/-! ### Acceptance -/

/-- R157: the first error that applies to a command word, in the order ILLEGAL, NOKEY, LENGTH, RANGE, or none. -/
def check (v : Word) (s : State) : Nibble :=
  match decode v with
  | .illegal _ => codeIllegal
  | .command i =>
    if readsSchedule i && !s.kv then codeNoKey
    else if usesBuffer i && decide (s.len.toNat % 16 ≠ 0) then codeLength
    else if usesBuffer i && outOfRange s.platform s.addr s.len then codeRange
    else codeNone

/-- R142, R44: every worker with an empty range. -/
def noRanges (p : Platform) : List Worker := List.replicate p.numWorkers Worker.idle

/-- R130: worker 0 gets `[0, n)`, every other worker the empty range. -/
def sequentialRanges (p : Platform) (n : BlockIndex) : List Worker :=
  (List.range p.numWorkers).map fun w => if w = 0 then { lo := 0, hi := n, nx := 0 } else Worker.idle

/-- R131: `chunk = ceil(n / P)`. -/
def chunkSize (p : Platform) (n : BlockIndex) : Nat := (n.toNat + p.numWorkers - 1) / p.numWorkers

/-- R131: `lo_w = min(n, w·chunk)` and `hi_w = min(n, (w+1)·chunk)`, with `nx_w = lo_w`. -/
def parallelRange (p : Platform) (n : BlockIndex) (w : Nat) : Worker :=
  let lo := BitVec.ofNat 28 (min n.toNat (w * chunkSize p n))
  { lo := lo, hi := BitVec.ofNat 28 (min n.toNat ((w + 1) * chunkSize p n)), nx := lo }

/-- R131: the ranges of the P workers. -/
def parallelRanges (p : Platform) (n : BlockIndex) : List Worker :=
  (List.range p.numWorkers).map (parallelRange p n)

/-- R142: the ranges an opcode assigns: R130 for ECBE and ECBD, R131 for ECBEP. -/
def assignRanges (op : Nibble) (p : Platform) (n : BlockIndex) : List Worker :=
  match Instr.ofOpcode op with
  | some .ecbe | some .ecbd => sequentialRanges p n
  | some .ecbep => parallelRanges p n
  | _ => noRanges p

/-- R142: acceptance of a command word. -/
def accept (v : Word) (s : State) : State :=
  let op := (CmdWord.ofWord v).op
  let e := check v s
  let s' := s.setStatus Status.accepted
  if e = codeNone ∧ opcodeIs usesBuffer op then
    s'.setLatches op e s.addr (blockCount s.len) (assignRanges op s.platform (blockCount s.len))
  else s'.setLatches op e 0 0 (noRanges s.platform)

/-- R34: a host write made while BUSY = 1 is ignored and sets WIGN. -/
def ignoreWrite (s : State) : State := s.setStatus s.status.writeIgnored

/-- R24, R142, R34: the host's write of a word to CMD. -/
def writeCmd (v : Word) (s : State) : State := if s.status.busy then ignoreWrite s else accept v s

/-! ### The controller's completion step -/

/-- R135: the join, nx_w = hi_w for every worker w. -/
def joined (s : State) : Bool := s.workers.all fun k => k.nx == k.hi

/-- R143: the controller has a step. -/
def controllerEnabled (s : State) : Bool :=
  s.status.busy && (s.ecl != codeNone || !opcodeIs usesBuffer s.opl || joined s)

/-- R155, R143: `raise CmdError(ECL)`, the one error entry of the core: STATUS.ERR <- 1, STATUS.ERRCODE <- ECL, BUSY <- 0,
and nothing else changes. There is no return from it (R158). -/
def raiseCmdError (s : State) : State := s.setStatus (s.status.failed s.ecl)

/-- R143: the completion step, where the command's own work is `work`. -/
def complete (work : State → State) (s : State) : State :=
  if s.ecl ≠ codeNone then raiseCmdError s
  else
    let t := work s
    t.setStatus t.status.completed

/-- Whether a command is the one in progress: BUSY = 1 and OPL is its opcode (R40). -/
def inProgress (i : Instr) (s : State) : Bool := s.status.busy && s.opl == i.opcode

/-- R143: the controller's step for a command; without one, nothing changes (log entry 3). -/
def controllerStep (i : Instr) (work : State → State) (s : State) : State :=
  if inProgress i s && controllerEnabled s then complete work s else s

/-! ### A worker's block step -/

/-- R133: worker w has a step for command i, and its range. -/
def workerReady (i : Instr) (w : Nat) (s : State) : Option Worker :=
  if inProgress i s && usesBuffer i && s.ecl == codeNone then
    (s.workers[w]?).filter fun k => decide (k.nx < k.hi)
  else none

/-- R134: worker w, with range k, processes block nx_w with the block function f. `a + 15 < 2^A` by R127 in every state
a run reaches; where it fails the step stops (log entry 6). -/
def blockStep (f : Schedule → Block → Block) (w : Nat) (k : Worker) (s : State) :
    Host.Outcome State Fault Refusal :=
  let a := blockAddress s.addrl k.nx
  if a + 16 ≤ memorySize s.platform then
    .next ((s.setMem (writeBlock s.mem a (f s.rk (readBlock s.mem a)))).setWorkers
      (s.workers.set w { k with nx := k.nx + 1 }))
  else .fault (.noSuchAddress (max a (memorySize s.platform)))

/-- R133, R134: worker w's step for a command; without one, nothing changes (log entry 3). -/
def workerStep (i : Instr) (f : Schedule → Block → Block) (w : Nat) (s : State) :
    Host.Outcome State Fault Refusal :=
  match workerReady i w s with
  | some k => blockStep f w k s
  | none => .next s

/-! ### A command's step, by the agent that takes it (log entry 1) -/

/-- A command without buffer: the host's CMD write (R142, R34), or the controller's completion with `work` (R143). The
workers have no step (R133). -/
def command (i : Instr) (work : State → State) (s : State) : Host.Outcome State Fault Refusal :=
  match s.turn with
  | .host => .next (writeCmd (encode i) s)
  | .controller => .next (controllerStep i work s)
  | .worker _ => .next s

/-- An ECB command: the host's CMD write, a worker's block step with f (R134), or the controller's completion, which has
no work of its own (R143). -/
def bufferCommand (i : Instr) (f : Schedule → Block → Block) (s : State) :
    Host.Outcome State Fault Refusal :=
  match s.turn with
  | .host => .next (writeCmd (encode i) s)
  | .controller => .next (controllerStep i (fun s => s) s)
  | .worker w => workerStep i f w s

end Sys2Proof.Machine
end

