-- ==== Sys2Proof/Machine/BlockCommands.lean ====
section
/-! DEFINITION. The single-block commands (42_block_cipher.md R118, R119), in place in BLK0..BLK3 (R120). -/

namespace Sys2Proof.Machine

/-- R118: BLK <- encryptBlock(BLK, RK). -/
def encbWork (s : State) : State := s.setBlk (quadOfBlock (encryptBlock s.rk s.block))

/-- ENCB (R118). -/
def execEncb (s : State) : Host.Outcome State Fault Refusal := command .encb encbWork s

/-- R119: BLK <- decryptBlock(BLK, RK). -/
def decbWork (s : State) : State := s.setBlk (quadOfBlock (decryptBlock s.rk s.block))

/-- DECB (R119). -/
def execDecb (s : State) : Host.Outcome State Fault Refusal := command .decb decbWork s

end Sys2Proof.Machine
end

