-- ==== Sys2Proof/Machine/Control.lean ====
section
/-! DEFINITION. The control commands (44_control.md R145, R146). -/

namespace Sys2Proof.Machine

/-- R145: NOP has no effect of its own. -/
def nopWork (s : State) : State := s

/-- NOP (R145). -/
def execNop (s : State) : Host.Outcome State Fault Refusal := command .nop nopWork s

/-- R146: KEY0..KEY3 <- 0, RK[0..43] <- 0, KV <- 0. -/
def zeroizeWork (s : State) : State :=
  (s.setKey (Vector.replicate 4 0) false).setSchedule (Vector.replicate 44 0) false

/-- ZEROIZE (R146). -/
def execZeroize (s : State) : Host.Outcome State Fault Refusal := command .zeroize zeroizeWork s

end Sys2Proof.Machine
end

