-- ==== Sys2Proof/Machine/EcbCommands.lean ====
section
/-! DEFINITION. The ECB commands (43_ecb_mode.md R137 to R139), in place in data memory. Acceptance assigns the ranges
(R130, R131); the block function is encryptBlock or decryptBlock (R125, R134). -/

namespace Sys2Proof.Machine

/-- ECBE (R137). -/
def execEcbe (s : State) : Host.Outcome State Fault Refusal := bufferCommand .ecbe encryptBlock s

/-- ECBEP (R138). -/
def execEcbep (s : State) : Host.Outcome State Fault Refusal := bufferCommand .ecbep encryptBlock s

/-- ECBD (R139). -/
def execEcbd (s : State) : Host.Outcome State Fault Refusal := bufferCommand .ecbd decryptBlock s

end Sys2Proof.Machine
end

