-- ==== Sys2Proof/Machine/KeySchedule.lean ====
section
/-! DEFINITION. Key expansion (40_key_expansion.md R85 to R89). -/

namespace Sys2Proof.Machine

/-- R86: RotWord, left by one byte. -/
def rotWord (w : Word) : Word := w.rotateLeft 8

/-- R87: SubWord, the S-box on each byte. -/
def subWord (w : Word) : Word :=
  wordOf (sbox (byteOf w 0)) (sbox (byteOf w 1)) (sbox (byteOf w 2)) (sbox (byteOf w 3))

/-- R88: RC[n + 1], so that RC[1] = 0x01 and RC[j] = xtime(RC[j−1]). -/
def roundConstant : Nat → Byte
  | 0 => 0x01
  | n + 1 => xtime (roundConstant n)

/-- R88: Rcon[j] = word(RC[j], 0, 0, 0), for j = 1..10. -/
def rcon (j : Nat) : Word := wordOf (roundConstant (j - 1)) 0x00 0x00 0x00

/-- R89: the word `temp` that is XORed into `w[i]`, from `w[i−1]`. -/
def expansionTemp (i : Nat) (prev : Word) : Word :=
  if i % 4 = 0 then subWord (rotWord prev) ^^^ rcon (i / 4) else prev

/-- R89: the pass of the loop for i = n + 4. -/
def expansionStep (w : Schedule) (n : Fin 40) : Schedule :=
  w.set (n.val + 4) (w[n.val] ^^^ expansionTemp (n.val + 4) w[n.val + 3])

/-- R85: the first four words are the key, packed big-endian; the others are still to come. -/
def expansionStart (k : Key) : Schedule :=
  ((((Vector.replicate 44 (0 : Word)).set 0 (columnWord k 0)).set 1 (columnWord k 1)).set 2
    (columnWord k 2)).set 3 (columnWord k 3)

/-- R89: KeyExpansion, the loop i = 4..43. -/
def keyExpansion (k : Key) : Schedule :=
  (List.finRange 40).foldl expansionStep (expansionStart k)

end Sys2Proof.Machine
end

