-- ==== Sys2Proof/Machine/KeyExpand.lean ====
section
/-! DEFINITION. The key expansion command (40_key_expansion.md R92). -/

namespace Sys2Proof.Machine

/-- R92: RK <- KeyExpansion of the bytes of KEY0..KEY3, KV <- 1. -/
def keyexpWork (s : State) : State := s.setSchedule (keyExpansion s.keyBytes) true

/-- KEYEXP (R92). -/
def execKeyexp (s : State) : Host.Outcome State Fault Refusal := command .keyexp keyexpWork s

end Sys2Proof.Machine
end

