-- ==== Sys2Proof/Machine/Dispatch.lean ====
section
/-! DEFINITION. The step that the agent `s.turn` takes for a command, one arm per command (log entry 1). -/

namespace Sys2Proof.Machine

def exec (i : Instr) (s : State) : Host.Outcome State Fault Refusal :=
  match i with
  | .nop => Sys2Proof.Machine.execNop s
  | .keyexp => Sys2Proof.Machine.execKeyexp s
  | .encb => Sys2Proof.Machine.execEncb s
  | .decb => Sys2Proof.Machine.execDecb s
  | .ecbe => Sys2Proof.Machine.execEcbe s
  | .ecbep => Sys2Proof.Machine.execEcbep s
  | .ecbd => Sys2Proof.Machine.execEcbd s
  | .zeroize => Sys2Proof.Machine.execZeroize s

end Sys2Proof.Machine
end

