-- ==== Sys2Proof/Machine/Bus.lean ====
section
/-! DEFINITION. The host's accesses, one at a time (20_memory.md R58): to the register window (10_state.md R21 to R24,
R34) and to data memory (R42, 70_reset_and_hazards.md R177). -/

namespace Sys2Proof.Machine

/-- What follows a step that answered a next value. -/
def mapNext {α β : Type} (o : Host.Outcome α Fault Refusal) (f : α → β) : Host.Outcome β Fault Refusal :=
  match o with
  | .next a => .next (f a)
  | .fault e => .fault e
  | .refused e => .refused e

/-- The bytes `[addr, addr + width/8)` touch the window `[BASE, BASE + 256)` (R21, R22). -/
def touchesWindow (p : Platform) (addr width : Nat) : Bool :=
  decide (addr < p.base + 256) && decide (p.base < addr + max 1 ((width + 7) / 8))

/-- R22: an access to the window is 32 bits wide at a multiple of 4; any other is HostAccessFault. An access that does
not touch the window is another device's (log entry 7). Otherwise the access is at the offset `addr - BASE`. -/
def atWindow {α : Type} (p : Platform) (addr width : Nat) (k : Nat → Host.Outcome α Fault Refusal) :
    Host.Outcome α Fault Refusal :=
  if !touchesWindow p addr width then .refused (.outsideWindow addr)
  else if width ≠ 32 ∨ addr % 4 ≠ 0 then .fault (.hostAccess addr width)
  else k (addr - p.base)

/-- R34: a write to an operand register, ignored while BUSY = 1. -/
def writeOperandReg (r : Reg) (v : Word) (s : State) : State :=
  if s.status.busy then ignoreWrite s else storeReg r v s

/-- R71, R74: the host's write to CMD. A word that spells a command is that command's step; any other word is accepted
too (or ignored while busy). The caller has set `turn` to the host. -/
def writeCommandReg (v : Word) (s : State) : Host.Outcome State Fault Refusal :=
  match decode v with
  | .command i => exec i s
  | .illegal _ => .next (writeCmd v s)

/-- R21: the host's write to a register. STATUS and CONFIG ignore writes, without WIGN (R23). -/
def writeReg (r : Reg) (v : Word) (s : State) : Host.Outcome State Fault Refusal :=
  match r with
  | .cmd    => writeCommandReg v s
  | .status => .next s
  | .config => .next s
  | .addr   => .next (writeOperandReg .addr v s)
  | .len    => .next (writeOperandReg .len v s)
  | .key j  => .next (writeOperandReg (.key j) v s)
  | .blk j  => .next (writeOperandReg (.blk j) v s)

/-- R21, R23: a write at an offset of the window; a reserved offset ignores it. -/
def writeWindow (o : Nat) (v : Word) (s : State) : Host.Outcome State Fault Refusal :=
  match Reg.atOffset o with
  | some r => writeReg r v s
  | none => .next s

/-- R21, R22: the host's write at an address of its address space. -/
def busWrite (addr width : Nat) (v : Word) (s : State) : Host.Outcome State Fault Refusal :=
  atWindow s.platform addr width fun o => writeWindow o v s

/-- R21, R22, R23: the host's read at an address of its address space. -/
def busRead (addr width : Nat) (s : State) : Host.Outcome (Word × State) Fault Refusal :=
  atWindow s.platform addr width fun o => .next (readWindow (Reg.atOffset o) s)

/-- R42, R177: the host may access a byte of data memory that exists and is in no buffer in use. -/
def atMemory {α : Type} (a : Nat) (s : State) (k : Host.Outcome α Fault Refusal) :
    Host.Outcome α Fault Refusal :=
  if memorySize s.platform ≤ a then .fault (.noSuchAddress a)
  else if inBuffer s a then .fault (.bufferRace a)
  else k

/-- R42, R60: the host's write of a byte of data memory. -/
def hostMemWrite (a : Nat) (b : Byte) (s : State) : Host.Outcome State Fault Refusal :=
  atMemory a s (.next (s.setMem (memWrite s.mem a b)))

/-- R42, R60: the host's read of a byte of data memory. -/
def hostMemRead (a : Nat) (s : State) : Host.Outcome Byte Fault Refusal :=
  atMemory a s (.next (memRead s.mem a))

end Sys2Proof.Machine
end

