-- ==== Sys2Proof/Machine/HostProgram.lean ====
section
/-! DEFINITION. The host agent: its variables, one action of its program, and the expansion of the pseudo-operations
(30_encoding.md R76, R77). -/

namespace Sys2Proof.Machine

/-! ### Variables: sorted by number, a variable at its initial value is not listed (log entry 11). -/

/-- The value of a variable, `d` where it is not listed. -/
def varGet {α : Type} (d : α) : List (Nat × α) → Nat → α
  | [], _ => d
  | (k, v) :: l, x => if x = k then v else varGet d l x

/-- The entry of a variable, or nothing where the value is the initial one. -/
def varEntry {α : Type} [DecidableEq α] (d : α) (x : Nat) (v : α) : List (Nat × α) :=
  if v = d then [] else [(x, v)]

/-- The variables with one of them set. -/
def varSet {α : Type} [DecidableEq α] (d : α) : List (Nat × α) → Nat → α → List (Nat × α)
  | [], x, v => varEntry d x v
  | (k, w) :: l, x, v =>
    if x < k then varEntry d x v ++ (k, w) :: l
    else if x = k then varEntry d x v ++ l
    else (k, w) :: varSet d l x v

namespace HostState

/-- A word variable. -/
def word (h : HostState) (x : Nat) : Word := varGet 0 h.wordVars x

/-- A byte-string variable. -/
def bytes (h : HostState) (y : Nat) : List Byte := varGet [] h.byteVars y

/-- A read's result into a word variable. -/
def setWord (h : HostState) (x : Nat) (v : Word) : HostState := { h with wordVars := varSet 0 h.wordVars x v }

/-- A byte string into a variable. -/
def setBytes (h : HostState) (y : Nat) (bs : List Byte) : HostState :=
  { h with byteVars := varSet [] h.byteVars y bs }

/-- A read's result at the end of a byte-string variable. -/
def appendByte (h : HostState) (y : Nat) (b : Byte) : HostState := h.setBytes y (h.bytes y ++ [b])

/-- The place in the program: line `pc`, with no byte of an MWR or MRD moved yet. -/
def goto (h : HostState) (pc : Nat) : HostState := { h with pc := pc, moved := 0 }

/-- R76: the next line. -/
def advance (h : HostState) : HostState := h.goto (h.pc + 1)

/-- One byte of an MWR or MRD of n bytes is moved; after the last one the next line follows. -/
def byteMoved (h : HostState) (n : Nat) : HostState :=
  if h.moved + 1 < n then { h with moved := h.moved + 1 } else h.advance

end HostState

/-- The line a label names. -/
def labelLine (prog : List HostLine) (l : Nat) : Option Nat := prog.findIdx? fun x => x.label == some l

namespace State

/-- The host agent after its next line is reached. -/
def hostAdvance (s : State) : State := s.setHost s.host.advance

end State

/-- R76, `WR`: one write at `BASE + offset(reg)`. -/
def hostWr (r : Reg) (v : Word) (s : State) : Host.Outcome State Fault Refusal :=
  mapNext (busWrite (s.platform.base + r.offset) 32 v s) State.hostAdvance

/-- R76, `RD`: one read at `BASE + offset(reg)`, into a host variable. -/
def hostRd (r : Reg) (x : Nat) (s : State) : Host.Outcome State Fault Refusal :=
  mapNext (busRead (s.platform.base + r.offset) 32 s) fun vt =>
    vt.2.setHost (vt.2.host.setWord x vt.1).advance

/-- R76, `MWR`: one byte write, at the next ascending address; an empty byte string is no access. -/
def hostMwr (a : Nat) (bs : List Byte) (s : State) : Host.Outcome State Fault Refusal :=
  match bs[s.host.moved]? with
  | some b =>
    mapNext (hostMemWrite (a + s.host.moved) b s) fun t => t.setHost (t.host.byteMoved bs.length)
  | none => .next s.hostAdvance

/-- R76, `MRD`: the host before its first byte read has an empty string in the variable. -/
def mrdStart (y : Nat) (h : HostState) : HostState := if h.moved = 0 then h.setBytes y [] else h

/-- R76, `MRD`: one byte read (R58: one access at a time), at the next address, into a host variable. DESIGN CHOICE (log
entry 11): the reads are in ascending order; the spec says 'ascending' of MWR only. -/
def hostMrd (a n y : Nat) (s : State) : Host.Outcome State Fault Refusal :=
  let h := mrdStart y s.host
  if h.moved < n then
    mapNext (hostMemRead (a + h.moved) s) fun b => s.setHost ((h.appendByte y b).byteMoved n)
  else .next (s.setHost h.advance)

/-- R76, `BNZ`: to the label if the bit is 1, else to the next line. It touches nothing outside the host. DESIGN CHOICE
(log entry 11): it tests a word variable, the kind RD sets; the spec does not say what it tests of a variable MRD set. A
bit above 31 is not 1. -/
def hostBnz (x bit l : Nat) (s : State) : Host.Outcome State Fault Refusal :=
  if (s.host.word x).getLsbD bit then
    match labelLine s.host.prog l with
    | some pc => .next (s.setHost (s.host.goto pc))
    | none => .refused (.undefinedLabel l)
  else .next s.hostAdvance

/-- R76: one operation of the host. -/
def hostOpStep (op : HostOp) (s : State) : Host.Outcome State Fault Refusal :=
  match op with
  | .wr r v => hostWr r v s
  | .rd r x => hostRd r x s
  | .mwr a bs => hostMwr a bs s
  | .mrd a n y => hostMrd a n y s
  | .bnz x bit l => hostBnz x bit l s

/-- R58, R76: the host's next action, in program order; after the last line the host does nothing. -/
def programStep (s : State) : Host.Outcome State Fault Refusal :=
  match s.host.prog[s.host.pc]? with
  | some line => hostOpStep line.op s
  | none => .next s

/-! ### Pseudo-operations (R77) -/

/-- The host variable `st` (R77; log entry 11). -/
def stVar : Nat := 0

/-- A line without a label. -/
def plain (op : HostOp) : HostLine := { label := none, op := op }

/-- R77: `POLL -> x`, with a fresh label: read STATUS until BUSY (bit 0) is 0. -/
def pollLines (fresh x : Nat) : List HostLine :=
  [{ label := some fresh, op := .rd .status x }, plain (.bnz x 0 fresh)]

/-- R77: the expansion of a pseudo-operation. `fresh` is a label no line has; only POLL and commands use it. A
pseudo-operation carries no label of its own (DESIGN CHOICE, log entry 11). -/
def expandOp (fresh : Nat) : PseudoOp → List HostLine
  | .line l => [l]
  | .poll x => pollLines fresh x
  | .command i => plain (.wr .cmd (encode i)) :: pollLines fresh stVar
  | .setKey k =>
    [plain (.wr (.key 0) (columnWord k 0)), plain (.wr (.key 1) (columnWord k 1)),
     plain (.wr (.key 2) (columnWord k 2)), plain (.wr (.key 3) (columnWord k 3))]
  | .setBlk b =>
    [plain (.wr (.blk 0) (columnWord b 0)), plain (.wr (.blk 1) (columnWord b 1)),
     plain (.wr (.blk 2) (columnWord b 2)), plain (.wr (.blk 3) (columnWord b 3))]
  | .getBlk v0 v1 v2 v3 =>
    [plain (.rd (.blk 0) v0), plain (.rd (.blk 1) v1), plain (.rd (.blk 2) v2), plain (.rd (.blk 3) v3)]
  | .setBuf a n => [plain (.wr .addr a), plain (.wr .len n)]

/-- R77: the expansion of a program, with labels fresh, fresh + 1, ... for its POLLs. -/
def expandProgram (fresh : Nat) : List PseudoOp → List HostLine
  | [] => []
  | p :: ps => expandOp fresh p ++ expandProgram (fresh + 1) ps

/-- R76: the bus transactions of one host operation; `BNZ` has none. Each is an event of the input list. The order of MRD's
reads is ascending (DESIGN CHOICE, log entry 11). -/
def transactions (p : Platform) : HostOp → List Event
  | .wr r v => [.busWrite (p.base + r.offset) 32 v]
  | .rd r x => [.busRead (p.base + r.offset) 32 x]
  | .mwr a bs => bs.mapIdx fun i b => .memWrite (a + i) b
  | .mrd a n y => (List.range n).map fun i => .memRead (a + i) y
  | .bnz _ _ _ => []

end Sys2Proof.Machine
end

