-- ==== Sys2Proof/Machine/Reset.lean ====
section
/-! DEFINITION. The reset input (70_reset_and_hazards.md R170, R171). -/

namespace Sys2Proof.Machine

/-- R171: an ECB command is in progress, so its buffer is drawn freely. -/
def bufferInUse (s : State) : Bool := s.status.busy && opcodeIs usesBuffer s.opl

/-- R171: the number of bytes of the buffer of the ECB command in progress, `16·n`. -/
def bufferBytes (s : State) : Nat := if bufferInUse s then 16 * s.nbl.toNat else 0

/-- R170, R171, R44: the core's state takes its reset values, and each byte of the buffer of an ECB command in progress
is drawn freely. The platform is not changed; the host agent and the events to come are not the core's (log entry 13). -/
def resetStep (s : State) : State :=
  { State.reset with
    platform := s.platform
    workers  := noRanges s.platform
    mem      := drawBytes s.mem s.addrl.toNat s.draws (bufferBytes s)
    inputs   := s.inputs
    draws    := s.draws + bufferBytes s
    host     := s.host }

end Sys2Proof.Machine
end

