-- ==== Sys2Proof/Machine/Schedule.lean ====
section
/-! DEFINITION. Whose step is next, and that step (00_scope.md R18; 43_ecb_mode.md R133; 44_control.md R143;
log entries 3 and 4). -/

namespace Sys2Proof.Machine

/-- The agent of an event; the reset input leaves `turn` at its reset value. -/
def Event.agent : Event → Agent
  | .controller => .controller
  | .worker w => .worker w
  | .busWrite _ _ _ | .busRead _ _ _ | .memWrite _ _ | .memRead _ _ | .program | .reset => .host

/-- R143: the controller's step for the command in progress. An opcode that names no command has no work: with ECL ≠ 0
it ends with the error (R74); with ECL = 0, which no run reaches, R143's case matches nothing (log entry 10). -/
def controllerEvent (s : State) : Host.Outcome State Fault Refusal :=
  match Instr.ofOpcode s.opl with
  | some i => exec i s
  | none => .next (if controllerEnabled s then complete (fun s => s) s else s)

/-- R133: a worker's step for the command in progress. -/
def workerEvent (s : State) : Host.Outcome State Fault Refusal :=
  match Instr.ofOpcode s.opl with
  | some i => exec i s
  | none => .next s

/-- A raw read of the window, into a word variable of the host. -/
def busReadEvent (addr width x : Nat) (s : State) : Host.Outcome State Fault Refusal :=
  mapNext (busRead addr width s) fun vt => vt.2.setHost (vt.2.host.setWord x vt.1)

/-- A raw read of data memory, into a byte-string variable of the host. -/
def memReadEvent (a y : Nat) (s : State) : Host.Outcome State Fault Refusal :=
  mapNext (hostMemRead a s) fun b => s.setHost (s.host.appendByte y b)

/-- One event, with `turn` already set to its agent. -/
def eventStep (e : Event) (s : State) : Host.Outcome State Fault Refusal :=
  match e with
  | .busWrite addr width v => busWrite addr width v s
  | .busRead addr width x => busReadEvent addr width x s
  | .memWrite a b => hostMemWrite a b s
  | .memRead a y => memReadEvent a y s
  | .program => programStep s
  | .controller => controllerEvent s
  | .worker _ => workerEvent s
  | .reset => .next (resetStep s)

/-- One event. -/
def runEvent (e : Event) (s : State) : Host.Outcome State Fault Refusal := eventStep e (s.setTurn e.agent)

/-- Worker w has a step (R133). -/
def workerHasStep (s : State) (w : Nat) : Bool :=
  (Instr.ofOpcode s.opl).any fun i => (workerReady i w s).isSome

/-- DESIGN CHOICE (log entry 4): with no event to come, the lowest-numbered worker that has a step takes it, else the
controller, else the host's program, else nothing happens. One interleaving of the many R61 and R144 allow; the others
are input lists. -/
def defaultEvent (s : State) : Option Event :=
  match (List.range s.workers.length).find? (workerHasStep s) with
  | some w => some (.worker w)
  | none =>
    if controllerEnabled s then some .controller
    else if s.host.pc < s.host.prog.length then some .program
    else none

/-- The next event: the first of the input list, or the default one. -/
def advanceMachine (s : State) : Host.Outcome State Fault Refusal :=
  match s.inputs with
  | e :: es => runEvent e (s.setInputs es)
  | [] =>
    match defaultEvent s with
    | some e => runEvent e s
    | none => .next s

/-- The event by which the host writes a command word to CMD (R24). -/
def commandEvent (p : Platform) (v : Word) : Event := .busWrite (p.base + Reg.offset .cmd) 32 v

end Sys2Proof.Machine
end

