-- ==== Sys2Proof/Machine/Step.lean ====
section
/-! DEFINITION. One step of the machine, and where it takes its next command word from. The core fetches no
instructions (10_state.md R38, 20_memory.md R64): a command arrives as a host write to CMD (R24). -/

namespace Sys2Proof.Machine

/-- One step: one event (Schedule.lean). -/
def step (s : State) : Host.Outcome State Fault Refusal := advanceMachine s

/-- The state whose next event is the host's write of a table word to CMD (log entry 1). -/
def State.withFetchWord (s : State) (nbits w : Nat) : State :=
  s.setInputs (commandEvent s.platform (BitVec.ofNat 32 (w % 2 ^ nbits)) :: s.inputs)

end Sys2Proof.Machine
end

