-- ==== Sys2Proof/Safety.lean ====
section
/-! DEFINITION. What counts as a legal state and a safe run, in the terms the statements use. -/

namespace Sys2Proof.Safety

open Sys2Proof.Machine

/-- The data memory is in canonical form and holds no address at or above 2^A (10_state.md R42). -/
def MemoryLegal (s : State) : Prop :=
  Memory.wf s.mem ∧ ∀ c ∈ s.mem, c.1 < memorySize s.platform

/-- The status register is legal (10_state.md R25, R27; 93_implementation_defined.md U14): while busy nothing is
reported; ERRCODE ≠ 0 exactly when ERR = 1; DONE and ERR are never both 1; no code above 4 is produced or latched. -/
structure StatusLegal (s : State) : Prop where
  busy_clear   : s.status.busy = true → s.status.done = false ∧ s.status.err = false ∧ s.status.errcode = 0
  code_iff_err : s.status.errcode ≠ 0 ↔ s.status.err = true
  not_both     : ¬(s.status.done = true ∧ s.status.err = true)
  code_le      : s.status.errcode ≤ 4
  ecl_le       : s.ecl ≤ 4

/-- KV means what it says (10_state.md R36), and a command in progress that reads RK passed its KV test (44_control.md
R147). -/
structure ScheduleLegal (s : State) : Prop where
  valid : s.kv = true → s.rk = keyExpansion s.keyBytes
  held  : s.status.busy = true → s.ecl = codeNone → opcodeIs readsSchedule s.opl = true → s.kv = true

/-- Worker w of the list owns block i (43_ecb_mode.md R131, R133). -/
def Owns (ws : List Worker) (w i : Nat) : Prop :=
  ∃ k, ws[w]? = some k ∧ k.lo.toNat ≤ i ∧ i < k.hi.toNat

/-- The workers' ranges are legal: one range per worker, each within `[0, n)` and with `lo ≤ nx ≤ hi`, every block of
the buffer owned by exactly one worker (43_ecb_mode.md R130, R131); the buffer lies in data memory, at bytes MemOK admits
(R127); and with an error latched there is no block (44_control.md R142). -/
structure RangesLegal (s : State) : Prop where
  one_each  : s.workers.length = s.platform.numWorkers
  ordered   : ∀ k ∈ s.workers, k.lo ≤ k.nx ∧ k.nx ≤ k.hi ∧ k.hi ≤ s.nbl
  owned     : ∀ i < s.nbl.toNat, ∃ w, Owns s.workers w i ∧ ∀ w', Owns s.workers w' i → w' = w
  in_memory : s.addrl.toNat + 16 * s.nbl.toNat ≤ memorySize s.platform
  admitted  : rangeOK s.platform s.addrl.toNat (s.addrl.toNat + 16 * s.nbl.toNat) = true
  no_error  : s.ecl ≠ codeNone → s.nbl = 0

/-- A legal state: legal parameters (00_scope.md R8 to R10) and every part legal. -/
structure Legal (s : State) : Prop where
  platform : s.platform.wf = true
  memory   : MemoryLegal s
  status   : StatusLegal s
  schedule : ScheduleLegal s
  ranges   : RangesLegal s

/-- The events of the core's own agents and the reset input: the host has no part in them. -/
def isCoreEvent : Event → Bool
  | .controller | .worker _ | .reset => true
  | .busWrite _ _ _ | .busRead _ _ _ | .memWrite _ _ | .memRead _ _ | .program => false

/-- The events of the agents of the core, without the reset input. -/
def isAgentEvent : Event → Bool
  | .controller | .worker _ => true
  | .reset | .busWrite _ _ _ | .busRead _ _ _ | .memWrite _ _ | .memRead _ _ | .program => false

/-- From s, the core's agents taking steps in the order of evs, and nothing else happening, leads to t. Every
interleaving of the workers and the controller is some evs (43_ecb_mode.md R133). -/
def RunsTo (s : State) (evs : List Event) (t : State) : Prop :=
  evs.all isAgentEvent = true ∧ Sys2Proof.core.run evs.length { s with inputs := evs } = .next t

/-- An ECB command in progress that passed its checks, none of its blocks processed yet: the state right after its
acceptance (44_control.md R142), with any legal assignment of ranges (43_ecb_mode.md R131, R132). -/
structure FreshBuffer (i : Instr) (s : State) : Prop where
  legal   : Legal s
  buffer  : usesBuffer i = true
  busy    : s.status.busy = true
  opcode  : s.opl = i.opcode
  passed  : s.ecl = codeNone
  waiting : ∀ k ∈ s.workers, k.nx = k.lo

/-- R125: the block function of an ECB command: decryptBlock for ECBD, encryptBlock for ECBE and ECBEP. -/
def ecbFunction (i : Instr) : Schedule → Block → Block := if i = .ecbd then decryptBlock else encryptBlock

/-- R125: the byte at address a of memory m after f is applied to each block of the n-block buffer at base. -/
def ecbByte (f : Block → Block) (m : List Host.Cell) (base n a : Nat) : Byte :=
  if base ≤ a ∧ a < base + 16 * n then
    (f (readBlock m (base + 16 * ((a - base) / 16))))[(a - base) % 16]'(Nat.mod_lt _ (by decide))
  else memRead m a

/-- The number of blocks the workers still have to process. -/
def blocksLeft (s : State) : Nat := (s.workers.map fun k => k.hi.toNat - k.nx.toNat).sum

/-- A step is safe when it answers a next state. -/
def Safe (s : State) : Prop := ∃ t, step s = .next t

end Sys2Proof.Safety
end

