-- ==== Sys2Proof/Certificates/Slice0/Obligations.lean ====
section
/-! DEFINITION. The statements for the provers. `s.turn` names the agent whose step `exec` takes (log entry 1); a
statement about an agent's step says whose it is in its hypotheses. -/

open Sys2Proof Sys2Proof.Machine Sys2Proof.Safety

/-! ### Encoding -/

/-- The words of the opcode map, written out (30_encoding.md R72), and some that spell no command (R74). -/
def Obligations.TableWordsDecode : Prop :=
  decode 0x00000000 = .command .nop ∧ decode 0x00000001 = .command .keyexp ∧
  decode 0x00000002 = .command .encb ∧ decode 0x00000003 = .command .decb ∧
  decode 0x00000004 = .command .ecbe ∧ decode 0x00000005 = .command .ecbep ∧
  decode 0x00000006 = .command .ecbd ∧ decode 0x00000008 = .command .zeroize ∧
  decode 0x00000007 = .illegal .reservedOpcode ∧ decode 0x0000000F = .illegal .reservedOpcode ∧
  decode 0x00000010 = .illegal .reservedBits ∧ decode 0x80000001 = .illegal .reservedBits ∧
  decodeTableWord 32 0x00000008 = some .zeroize

/-- Every 32-bit word is exactly one command, whose opcode zero-extended it is, or ILLEGAL, which it is exactly when a
reserved bit is set or the opcode is 7 or lies in 9..15 (30_encoding.md R71, R72). -/
def Obligations.DecodeIsExact : Prop :=
  ∀ v : Word,
    (∀ i, decode v = .command i ↔ v = i.opcode.setWidth 32) ∧
    ((∃ why, decode v = .illegal why) ↔
      v.extractLsb' 4 28 ≠ 0 ∨ v.extractLsb' 0 4 = 7 ∨ 9 ≤ v.extractLsb' 0 4)

/-- A word that spells no command (30_encoding.md R74) is accepted by an idle core (BUSY set, the status fields cleared), and the
controller's step then ends it with ILLEGAL; nothing else changes but the hidden latches. -/
def Obligations.IllegalWordsEndIllegal : Prop :=
  ∀ (s : State) (v : Word), s.platform.wf = true → s.status.busy = false →
    (v.extractLsb' 4 28 ≠ 0 ∨ v.extractLsb' 0 4 = 7 ∨ 9 ≤ v.extractLsb' 0 4) →
    ∃ t u, busWrite (s.platform.base + 0x00) 32 v s = .next t ∧
      t.status = { busy := true, done := false, err := false, errcode := 0, wign := false } ∧
      controllerEvent { t with turn := .controller } = .next u ∧
      u.status = { busy := false, done := false, err := true, errcode := 1, wign := false } ∧
      s = { u with
        status := s.status, opl := s.opl, ecl := s.ecl, addrl := s.addrl, nbl := s.nbl,
        workers := s.workers, turn := s.turn }

/-! ### A step runs the decoded command -/

/-- When the next event is the host's write to CMD of a word that decodes to i, the step is `exec i` with the event
consumed and the turn the host's; so it is after `withFetchWord` (10_state.md R24; log entry 1). -/
def Obligations.StepRunsTheWrittenCommand : Prop :=
  ∀ (s : State) (i : Instr), s.platform.wf = true →
    (∀ v es, decode v = .command i → s.inputs = commandEvent s.platform v :: es →
      step s = exec i { s with inputs := es, turn := .host }) ∧
    (∀ w, decodeTableWord 32 w = some i → step (s.withFetchWord 32 w) = exec i { s with turn := .host })

/-- When the next event is the controller's or a worker's step and OPL names i, the step is `exec i` with the event
consumed and the turn that agent's (43_ecb_mode.md R133, 44_control.md R143; log entry 1). -/
def Obligations.StepRunsTheCommandInProgress : Prop :=
  ∀ (s : State) (i : Instr) (es : List Event), s.opl = i.opcode →
    (s.inputs = .controller :: es → step s = exec i { s with inputs := es, turn := .controller }) ∧
    (∀ w, s.inputs = .worker w :: es → step s = exec i { s with inputs := es, turn := .worker w })

/-! ### Acceptance -/

/-- R142: the host's write of a word v to CMD of an idle core; the check reads only v, KV, ADDR, LEN, A and MemOK. -/
def Obligations.AcceptanceSetsStatusAndLatches : Prop :=
  (∀ (s s' : State) (v : Word), s'.kv = s.kv → s'.addr = s.addr → s'.len = s.len →
    s'.platform.addrWidth = s.platform.addrWidth → s'.platform.holes = s.platform.holes → check v s' = check v s) ∧
  ∀ (s : State) (v : Word), s.platform.wf = true → s.turn = .host → s.status.busy = false →
    let op := v.extractLsb' 0 4
    let n : BlockIndex := BitVec.ofNat 28 (s.len.toNat / 16)
    let work := check v s = 0 ∧ (op = 4 ∨ op = 5 ∨ op = 6)
    busWrite (s.platform.base + 0x00) 32 v s = .next { s with
      status  := { busy := true, done := false, err := false, errcode := 0, wign := false }
      opl     := op
      ecl     := check v s
      addrl   := if work then s.addr else 0
      nbl     := if work then n else 0
      workers :=
        if work then (if op = 5 then parallelRanges s.platform n else sequentialRanges s.platform n)
        else List.replicate s.platform.numWorkers { lo := 0, hi := 0, nx := 0 } }

/-- The host's step of every command: an idle core accepts its word, a busy core ignores it and sets WIGN
(44_control.md R142, 10_state.md R24, R34). -/
def Obligations.EveryCommandIsAcceptedOrIgnored : Prop :=
  ∀ (i : Instr) (s : State), s.turn = .host →
    (s.status.busy = true → exec i s = .next { s with status := { s.status with wign := true } }) ∧
    (s.status.busy = false →
      let work := check (encode i) s = 0 ∧ (i = .ecbe ∨ i = .ecbep ∨ i = .ecbd)
      exec i s = .next { s with
        status  := { busy := true, done := false, err := false, errcode := 0, wign := false }
        opl     := i.opcode
        ecl     := check (encode i) s
        addrl   := if work then s.addr else 0
        nbl     := if work then blockCount s.len else 0
        workers := if work then assignRanges i.opcode s.platform (blockCount s.len)
                   else noRanges s.platform })

/-- R157: the one error reported is the first of ILLEGAL, NOKEY, LENGTH, RANGE that applies. -/
def Obligations.CheckFollowsThePriority : Prop :=
  ∀ (s : State) (v : Word),
    let op := v.extractLsb' 0 4
    let illegal := v.extractLsb' 4 28 ≠ 0 ∨ op = 7 ∨ 9 ≤ op
    let noKey := (2 ≤ op ∧ op ≤ 6) ∧ s.kv = false
    let buffer := 4 ≤ op ∧ op ≤ 6
    let badLength := s.len.toNat % 16 ≠ 0
    let badRange := 2 ^ s.platform.addrWidth < s.addr.toNat + s.len.toNat ∨
      ∃ a, s.addr.toNat ≤ a ∧ a < s.addr.toNat + s.len.toNat ∧ memOK s.platform a = false
    (illegal → check v s = 1) ∧
    (¬illegal → noKey → check v s = 2) ∧
    (¬illegal → ¬noKey → buffer → badLength → check v s = 3) ∧
    (¬illegal → ¬noKey → buffer → ¬badLength → badRange → check v s = 4) ∧
    (¬illegal → ¬noKey → (buffer → ¬badLength ∧ ¬badRange) → check v s = 0)

/-- R130: W0 gets the whole range, every other worker the empty range, and every worker starts at lo; ECBE and ECBD are
the commands so assigned. -/
def Obligations.SequentialAssignment : Prop :=
  ∀ (p : Platform) (n : BlockIndex),
    assignRanges Instr.ecbe.opcode p n = sequentialRanges p n ∧
    assignRanges Instr.ecbd.opcode p n = sequentialRanges p n ∧
    (sequentialRanges p n).length = p.numWorkers ∧
    ∀ w < p.numWorkers, (sequentialRanges p n)[w]? =
      some (if w = 0 then { lo := 0, hi := n, nx := 0 } else { lo := 0, hi := 0, nx := 0 })

/-- R131: the P ranges of ECBEP: the formula, contiguous from 0 to n in worker order, every range that ends below n of
chunk blocks, and every range after one that ends at n empty. -/
def Obligations.ParallelPartition : Prop :=
  ∀ (p : Platform) (n : BlockIndex), p.wf = true →
    let chunk := (n.toNat + p.numWorkers - 1) / p.numWorkers
    assignRanges Instr.ecbep.opcode p n = parallelRanges p n ∧
    (parallelRanges p n).length = p.numWorkers ∧
    (∀ w k, (parallelRanges p n)[w]? = some k →
      k.lo.toNat = min n.toNat (w * chunk) ∧ k.hi.toNat = min n.toNat ((w + 1) * chunk) ∧ k.nx = k.lo ∧
      (k.hi.toNat < n.toNat → k.hi.toNat - k.lo.toNat = chunk) ∧
      k.hi.toNat - k.lo.toNat ≤ chunk ∧
      (w = 0 → k.lo = 0) ∧ (w + 1 = p.numWorkers → k.hi = n)) ∧
    (∀ w k k', (parallelRanges p n)[w]? = some k → (parallelRanges p n)[w + 1]? = some k' →
      k'.lo = k.hi ∧ (k.hi = n → k'.hi = n))

/-! ### Registers -/

/-- The fields of the STATUS word (10_state.md R25); its KV bit is KV (R28) and bits 31:9 are 0 (R23). -/
def Obligations.StatusWordLayout : Prop :=
  ∀ s : State,
    (statusWord s).getLsbD 0 = s.status.busy ∧ (statusWord s).getLsbD 1 = s.status.done ∧
    (statusWord s).getLsbD 2 = s.status.err ∧ (statusWord s).getLsbD 3 = s.kv ∧
    (statusWord s).extractLsb' 4 4 = s.status.errcode ∧ (statusWord s).getLsbD 8 = s.status.wign ∧
    (statusWord s).extractLsb' 9 23 = 0

/-- R29: CONFIG is read at offset 0x08 and not written there; its fields, its value for P = 4, and that no step, a reset
included, changes it. -/
def Obligations.ConfigIsConstant : Prop :=
  (∀ p : Platform, p.wf = true →
    ((configWord p).extractLsb' 0 8).toNat = p.numWorkers ∧ (configWord p).extractLsb' 8 8 = 0x10 ∧
    (configWord p).extractLsb' 16 8 = 0x0A ∧ (configWord p).extractLsb' 24 8 = 0x04 ∧
    (p.numWorkers = 4 → configWord p = 0x040A1004)) ∧
  (∀ s : State, s.platform.wf = true →
    busRead (s.platform.base + 0x08) 32 s = .next (configWord s.platform, s) ∧
    ∀ v, busWrite (s.platform.base + 0x08) 32 v s = .next s) ∧
  (∀ s t : State, step s = .next t → configWord t.platform = configWord s.platform)

/-- What the host reads of each register but BLK, and of the reserved offsets; no read changes anything
(10_state.md R21, R23, R24, R29 to R32). -/
def Obligations.WindowReads : Prop :=
  ∀ s : State, s.platform.wf = true →
    let read := fun o => busRead (s.platform.base + o) 32 s
    read 0x00 = .next (0, s) ∧ read 0x04 = .next (statusWord s, s) ∧
    read 0x08 = .next (configWord s.platform, s) ∧ read 0x0C = .next (s.addr, s) ∧
    read 0x10 = .next (s.len, s) ∧
    read 0x20 = .next (0, s) ∧ read 0x24 = .next (0, s) ∧ read 0x28 = .next (0, s) ∧
    read 0x2C = .next (0, s) ∧
    (∀ o, o % 4 = 0 → (o = 0x14 ∨ o = 0x18 ∨ o = 0x1C ∨ (0x40 ≤ o ∧ o < 0x100)) → read o = .next (0, s))

/-- A read of BLKj during an ENCB or DECB is a free draw; at every other time it is the word held (10_state.md R33,
70_reset_and_hazards.md R175). A word that ends ILLEGAL is no ENCB or DECB, whatever its low bits (the model's reading,
log entry 8). -/
def Obligations.BlockReadsDuringBlockCommands : Prop :=
  ∀ (s : State) (j : Fin 4), s.platform.wf = true →
    (s.status.busy = true → s.ecl ≠ 1 → (s.opl = Instr.encb.opcode ∨ s.opl = Instr.decb.opcode) →
      busRead (s.platform.base + (0x30 + 4 * j.val)) 32 s =
        .next (Config.freeWord s.draws, { s with draws := s.draws + 1 })) ∧
    (¬(s.status.busy = true ∧ s.ecl ≠ 1 ∧ (s.opl = Instr.encb.opcode ∨ s.opl = Instr.decb.opcode)) →
      busRead (s.platform.base + (0x30 + 4 * j.val)) 32 s = .next (s.blk[j], s))

/-- Writes to the operand registers of an idle core store the word; a KEYj write clears KV even when the word is the
one held (10_state.md R30 to R33). -/
def Obligations.AcceptedRegisterWrites : Prop :=
  ∀ (s : State) (v : Word) (j : Fin 4), s.platform.wf = true → s.status.busy = false →
    busWrite (s.platform.base + 0x0C) 32 v s = .next { s with addr := v } ∧
    busWrite (s.platform.base + 0x10) 32 v s = .next { s with len := v } ∧
    busWrite (s.platform.base + (0x20 + 4 * j.val)) 32 v s =
      .next { s with key := s.key.set j v, kv := false } ∧
    busWrite (s.platform.base + (0x30 + 4 * j.val)) 32 v s = .next { s with blk := s.blk.set j v }

/-- R34: a write to CMD, ADDR, LEN, KEYj or BLKj while BUSY = 1 sets WIGN and changes nothing else. -/
def Obligations.WritesWhileBusyAreIgnored : Prop :=
  ∀ (s : State) (r : Reg) (v : Word), s.platform.wf = true → s.turn = .host → s.status.busy = true →
    r ≠ .status → r ≠ .config →
    busWrite (s.platform.base + r.offset) 32 v s =
      .next { s with status := { s.status with wign := true } }

/-- R23: reserved offsets read 0; writes to them, to STATUS and to CONFIG have no effect at all, busy or not; the
reserved bits of STATUS read 0. -/
def Obligations.ReservedAndReadOnly : Prop :=
  ∀ (s : State) (o : Nat) (v : Word), s.platform.wf = true → o < 256 → o % 4 = 0 →
    ((o = 0x14 ∨ o = 0x18 ∨ o = 0x1C ∨ 0x40 ≤ o) →
      busRead (s.platform.base + o) 32 s = .next (0, s) ∧ busWrite (s.platform.base + o) 32 v s = .next s) ∧
    ((o = 0x04 ∨ o = 0x08) → busWrite (s.platform.base + o) 32 v s = .next s) ∧
    (statusWord s).extractLsb' 9 23 = 0

/-- R22: an access within the window that is not 32 bits wide or not at a multiple of 4 is HostAccessFault, for a read
and for a write; an aligned 32-bit access is not. -/
def Obligations.WrongWindowAccessFaults : Prop :=
  ∀ (s : State) (addr width : Nat) (v : Word), s.platform.wf = true →
    s.platform.base ≤ addr → addr < s.platform.base + 256 →
    (width ≠ 32 ∨ addr % 4 ≠ 0 →
      busRead addr width s = .fault (.hostAccess addr width) ∧
      busWrite addr width v s = .fault (.hostAccess addr width)) ∧
    (width = 32 ∧ addr % 4 = 0 → s.turn = .host →
      (∃ x, busRead addr width s = .next x) ∧ (∃ t, busWrite addr width v s = .next t))

/-- The window shows neither key nor schedule: two states that differ only in KEY0..KEY3 and RK answer every read of the
window alike (60_exceptions.md R162, 10_state.md R32, R35). -/
def Obligations.WindowHidesTheKey : Prop :=
  ∀ (s s' : State) (addr width : Nat), s' = { s with key := s'.key, rk := s'.rk } →
    busRead addr width s' =
      mapNext (busRead addr width s) fun x => (x.1, { x.2 with key := s'.key, rk := s'.rk })

/-! ### What the commands do -/

/-- The controller's step (44_control.md R143), whole: when it has one, and what it does for each command. That without a
step it leaves the state as it is (the first clause) is the model's choice (log entry 3). -/
def Obligations.CompletionStep : Prop :=
  ∀ s : State, s.turn = .controller →
    let enabled := s.status.busy = true ∧ (s.ecl ≠ 0 ∨ ¬(s.opl = 4 ∨ s.opl = 5 ∨ s.opl = 6) ∨
      ∀ k ∈ s.workers, k.nx = k.hi)
    let ok : Status := { s.status with done := true, busy := false }
    (¬enabled → controllerEvent s = .next s) ∧
    (enabled → s.ecl ≠ 0 → controllerEvent s =
      .next { s with status := { s.status with err := true, errcode := s.ecl, busy := false } }) ∧
    (enabled → s.ecl = 0 →
      (s.opl = 0x1 → controllerEvent s =
        .next { s with rk := keyExpansion s.keyBytes, kv := true, status := ok }) ∧
      (s.opl = 0x2 → controllerEvent s =
        .next { s with blk := quadOfBlock (encryptBlock s.rk s.block), status := ok }) ∧
      (s.opl = 0x3 → controllerEvent s =
        .next { s with blk := quadOfBlock (decryptBlock s.rk s.block), status := ok }) ∧
      (s.opl = 0x8 → controllerEvent s =
        .next { s with
          key := Vector.replicate 4 0, rk := Vector.replicate 44 0, kv := false, status := ok }) ∧
      ((s.opl = 0x0 ∨ s.opl = 0x4 ∨ s.opl = 0x5 ∨ s.opl = 0x6) →
        controllerEvent s = .next { s with status := ok }))

/-- NOP completes: DONE <- 1, BUSY <- 0, nothing else (44_control.md R145, R143). -/
def Obligations.NopCompletes : Prop :=
  ∀ s : State, s.turn = .controller → s.status.busy = true → s.opl = 0x0 → s.ecl = 0 →
    exec .nop s = .next { s with status := { s.status with done := true, busy := false } }

/-- KEYEXP completes: RK becomes the expansion of the bytes of KEY0..KEY3, KV 1, DONE 1, BUSY 0, and nothing else changes
(40_key_expansion.md R92). -/
def Obligations.KeyexpCompletes : Prop :=
  ∀ s : State, s.turn = .controller → s.status.busy = true → s.opl = 0x1 → s.ecl = 0 →
    exec .keyexp s = .next { s with
      rk := keyExpansion (blockOfQuad s.key), kv := true
      status := { s.status with done := true, busy := false } }

/-- ENCB completes: BLK0..BLK3 become the words of encryptBlock of their bytes under RK; DONE 1, BUSY 0; nothing else
changes (42_block_cipher.md R118). -/
def Obligations.EncbCompletes : Prop :=
  ∀ s : State, s.turn = .controller → s.status.busy = true → s.opl = 0x2 → s.ecl = 0 →
    exec .encb s = .next { s with
      blk := quadOfBlock (encryptBlock s.rk (blockOfQuad s.blk))
      status := { s.status with done := true, busy := false } }

/-- DECB completes: BLK0..BLK3 become the words of decryptBlock of their bytes under RK; DONE 1, BUSY 0; nothing else
changes (42_block_cipher.md R119). -/
def Obligations.DecbCompletes : Prop :=
  ∀ s : State, s.turn = .controller → s.status.busy = true → s.opl = 0x3 → s.ecl = 0 →
    exec .decb s = .next { s with
      blk := quadOfBlock (decryptBlock s.rk (blockOfQuad s.blk))
      status := { s.status with done := true, busy := false } }

/-- ZEROIZE completes: KEY0..KEY3, RK and KV become 0; DONE 1, BUSY 0; nothing else changes (44_control.md R146). -/
def Obligations.ZeroizeCompletes : Prop :=
  ∀ s : State, s.turn = .controller → s.status.busy = true → s.opl = 0x8 → s.ecl = 0 →
    exec .zeroize s = .next { s with
      key := Vector.replicate 4 0, rk := Vector.replicate 44 0, kv := false
      status := { s.status with done := true, busy := false } }

/-- R134: worker w's step of ECBE, ECBEP and ECBD: the 16 bytes at `a = ADDRL + 16·nx_w` become f of themselves under RK
(f is decryptBlock for ECBD, else encryptBlock), every other byte of memory reads as before, nx_w is incremented, and
nothing else changes. -/
def Obligations.EcbWorkerStep : Prop :=
  ∀ (i : Instr) (s : State) (w : Nat) (k : Worker),
    (i = .ecbe ∨ i = .ecbep ∨ i = .ecbd) → s.turn = .worker w →
    s.status.busy = true → s.opl = i.opcode → s.ecl = 0 →
    s.workers[w]? = some k → k.nx < k.hi → Memory.wf s.mem →
    let a := s.addrl.toNat + 16 * k.nx.toNat
    let f := if i = .ecbd then decryptBlock else encryptBlock
    a + 15 < 2 ^ s.platform.addrWidth →
    ∃ t, exec i s = .next t ∧
      (∀ b : Block, (∀ j : Fin 16, b[j] = memRead s.mem (a + j.val)) →
        ∀ j : Fin 16, memRead t.mem (a + j.val) = (f s.rk b)[j]) ∧
      (∀ x, x < a ∨ a + 16 ≤ x → memRead t.mem x = memRead s.mem x) ∧
      { t with mem := s.mem } = { s with workers := s.workers.set w { k with nx := k.nx + 1 } }

/-- The join (43_ecb_mode.md R135). The controller completes ECBE, ECBEP or ECBD (DONE 1, BUSY 0, nothing else) when
nx_w = hi_w for every worker w, and has no step before. That without a step it leaves the state as it is (the second
clause) is the model's choice (log entry 3). -/
def Obligations.EcbJoin : Prop :=
  ∀ (i : Instr) (s : State), (i = .ecbe ∨ i = .ecbep ∨ i = .ecbd) → s.turn = .controller →
    s.status.busy = true → s.opl = i.opcode → s.ecl = 0 →
    ((∀ k ∈ s.workers, k.nx = k.hi) →
      exec i s = .next { s with status := { s.status with done := true, busy := false } }) ∧
    ((∃ k ∈ s.workers, k.nx ≠ k.hi) → exec i s = .next s)

/-- R155: a command whose checks find an error: the code is latched into ECL at acceptance, and no address, no block and
no range beside it (R142); the controller's step sets ERR and ERRCODE, leaves DONE 0 and clears BUSY; and after both
steps nothing but STATUS and the hidden latches has changed: no register, no RK word, no KV, no byte of memory (60_exceptions.md
R156). -/
def Obligations.ErrorsArePrecise : Prop :=
  ∀ (i : Instr) (s : State), s.turn = .host → s.status.busy = false → check (encode i) s ≠ 0 →
    ∃ t u, exec i s = .next t ∧ t.ecl = check (encode i) s ∧ t.addrl = 0 ∧ t.nbl = 0 ∧
      t.workers = List.replicate s.platform.numWorkers { lo := 0, hi := 0, nx := 0 } ∧
      exec i { t with turn := .controller } = .next u ∧
      u.status = { busy := false, done := false, err := true, errcode := check (encode i) s, wign := false } ∧
      s = { u with
        status := s.status, opl := s.opl, ecl := s.ecl, addrl := s.addrl, nbl := s.nbl,
        workers := s.workers, turn := s.turn }

/-- A worker w has a step exactly when BUSY = 1, OPL is ECBE, ECBEP or ECBD, ECL = 0 and nx_w < hi_w (43_ecb_mode.md
R133). 'Has a step' is said here as 'its step is other than leaving the state as it is': that an agent without a step
leaves it so is the model's choice (log entry 3). -/
def Obligations.WorkerStepsExactlyWhenReady : Prop :=
  ∀ (s : State) (w : Nat), s.turn = .worker w →
    (workerEvent s ≠ .next s ↔
      s.status.busy = true ∧ (s.opl = 4 ∨ s.opl = 5 ∨ s.opl = 6) ∧ s.ecl = 0 ∧
        ∃ k, s.workers[w]? = some k ∧ k.nx < k.hi)

/-- Where a command has no step, `exec` leaves the state as it is: for the controller when the command is not in progress,
for a worker when it is not in progress, is no ECB command, ended with an error, or the worker has no block left
(43_ecb_mode.md R133, 44_control.md R143; log entry 3). -/
def Obligations.NoStepLeavesTheState : Prop :=
  ∀ (i : Instr) (s : State),
    (s.turn = .controller → ¬(s.status.busy = true ∧ s.opl = i.opcode) → exec i s = .next s) ∧
    (∀ w, s.turn = .worker w →
      ¬(s.status.busy = true ∧ s.opl = i.opcode ∧ usesBuffer i = true ∧ s.ecl = 0 ∧
        ∃ k, s.workers[w]? = some k ∧ k.nx < k.hi) → exec i s = .next s)

/-- The frame of NOP, KEYEXP, ENCB, DECB and ZEROIZE, whichever agent steps: no byte of memory, no buffer register, no
parameter changes; BLK only by ENCB and DECB, KEY only by ZEROIZE, RK and KV only by KEYEXP and ZEROIZE; the hidden
latches only in the host's step; WIGN not in the controller's; a worker changes nothing (30_encoding.md R73). -/
def Obligations.RegisterCommandsFrame : Prop :=
  ∀ (i : Instr) (s t : State),
    (i = .nop ∨ i = .keyexp ∨ i = .encb ∨ i = .decb ∨ i = .zeroize) → exec i s = .next t →
    (∀ a, memRead t.mem a = memRead s.mem a) ∧
    t.platform = s.platform ∧ t.addr = s.addr ∧ t.len = s.len ∧
    t.inputs = s.inputs ∧ t.turn = s.turn ∧ t.draws = s.draws ∧ t.host = s.host ∧
    (i ≠ .encb → i ≠ .decb → t.blk = s.blk) ∧ (i ≠ .zeroize → t.key = s.key) ∧
    (i ≠ .keyexp → i ≠ .zeroize → t.rk = s.rk ∧ t.kv = s.kv) ∧
    (s.turn ≠ .host → t.opl = s.opl ∧ t.ecl = s.ecl ∧ t.addrl = s.addrl ∧ t.nbl = s.nbl ∧
      t.workers = s.workers ∧ t.status.wign = s.status.wign) ∧
    (s.turn = .host → t.blk = s.blk ∧ t.key = s.key ∧ t.rk = s.rk ∧ t.kv = s.kv) ∧
    (∀ w, s.turn = .worker w → t = s)

/-- The frame of ECBE, ECBEP and ECBD, whichever agent steps: no register but STATUS and the hidden latches changes;
memory only in a worker's step, and only the 16 bytes at `blockAddress ADDRL nx_w`; the latches only in the host's step,
and in worker w's step only its own progress (30_encoding.md R73, 43_ecb_mode.md R134). -/
def Obligations.BufferCommandsFrame : Prop :=
  ∀ (i : Instr) (s t : State), (i = .ecbe ∨ i = .ecbep ∨ i = .ecbd) → exec i s = .next t →
    t.platform = s.platform ∧ t.addr = s.addr ∧ t.len = s.len ∧ t.key = s.key ∧ t.blk = s.blk ∧
    t.rk = s.rk ∧ t.kv = s.kv ∧ t.inputs = s.inputs ∧ t.turn = s.turn ∧ t.draws = s.draws ∧ t.host = s.host ∧
    ((s.turn = .host ∨ s.turn = .controller) → ∀ a, memRead t.mem a = memRead s.mem a) ∧
    (s.turn ≠ .host → t.opl = s.opl ∧ t.ecl = s.ecl ∧ t.addrl = s.addrl ∧ t.nbl = s.nbl ∧
      t.status.wign = s.status.wign) ∧
    (s.turn = .controller → t.workers = s.workers) ∧
    (∀ w, s.turn = .worker w → t.status = s.status ∧ t.workers.length = s.workers.length ∧
      (∀ w', w' ≠ w → t.workers[w']? = s.workers[w']?) ∧
      (s.workers[w]? = none → ∀ a, memRead t.mem a = memRead s.mem a) ∧
      (∀ k, s.workers[w]? = some k →
        (∃ k', t.workers[w]? = some k' ∧ k'.lo = k.lo ∧ k'.hi = k.hi) ∧
        ∀ a, a < blockAddress s.addrl k.nx ∨ blockAddress s.addrl k.nx + 16 ≤ a →
          memRead t.mem a = memRead s.mem a))

/-! ### The functions the commands are made of -/

/-- The field product (41_round_transforms.md R96, R97): linear in its second operand, of which `x` is xtime; commutative, associative,
distributive over ⊕, with identity 1 and zero 0; and the spec's examples. -/
def Obligations.FieldProductLaws : Prop :=
  (∀ a b, gmul a (xtime b) = xtime (gmul a b)) ∧ (∀ a, gmul a 0x02 = xtime a) ∧
  (∀ a b, gmul a b = gmul b a) ∧ (∀ a b c, gmul (gmul a b) c = gmul a (gmul b c)) ∧
  (∀ a b c, gmul a (b ^^^ c) = gmul a b ^^^ gmul a c) ∧ (∀ a, gmul a 0x01 = a) ∧ (∀ a, gmul 0x00 a = 0x00) ∧
  gmul 0x57 0x83 = 0xc1 ∧ gmul 0x57 0x13 = 0xfe ∧ gmul 0x53 0xca = 0x01

/-- R99: the S-box table is the affine map of the inverse (which is one, R98), a permutation without fixed point and
without opposite fixed point; the inverse table undoes it (R101). -/
def Obligations.SubstitutionTables : Prop :=
  (∀ a, a ≠ 0 → gmul a (ginv a) = 0x01) ∧ ginv 0x00 = 0x00 ∧
  (∀ a, let b := ginv a
    sbox a = b ^^^ b.rotateLeft 1 ^^^ b.rotateLeft 2 ^^^ b.rotateLeft 3 ^^^ b.rotateLeft 4 ^^^ 0x63) ∧
  Function.Bijective sbox ∧
  (∀ a, sbox a ≠ a) ∧ (∀ a, sbox a ≠ a ^^^ 0xff) ∧ (∀ a, invSbox (sbox a) = a) ∧ (∀ a, sbox (invSbox a) = a)

/-- The transforms byte by byte, in buffer order (41_round_transforms.md R102 to R108): the table entry each byte becomes
in SubBytes and InvSubBytes; where each output byte of ShiftRows and InvShiftRows comes from; the four bytes of each
column of MixColumns and InvMixColumns; which byte of the schedule AddRoundKey XORs into byte i. -/
def Obligations.TransformsInBufferOrder : Prop :=
  (∀ (s : Block) (w : Schedule) (n : Fin 11) (i : Fin 16),
    (subBytes s)[i] = sbox s[i] ∧ (invSubBytes s)[i] = invSbox s[i] ∧
    (shiftRows s)[i] = s[i.val % 4 + 4 * ((i.val / 4 + i.val % 4) % 4)] ∧
    (invShiftRows s)[i.val % 4 + 4 * ((i.val / 4 + i.val % 4) % 4)] = s[i] ∧
    (addRoundKey s w n)[i] =
      s[i] ^^^ byteOf w[4 * n.val + i.val / 4] ⟨i.val % 4, Nat.mod_lt _ (by decide)⟩) ∧
  ∀ (s : Block) (c : Fin 4),
    let a0 := s[4 * c.val]
    let a1 := s[4 * c.val + 1]
    let a2 := s[4 * c.val + 2]
    let a3 := s[4 * c.val + 3]
    (mixColumns s)[4 * c.val] = gmul 0x02 a0 ^^^ gmul 0x03 a1 ^^^ a2 ^^^ a3 ∧
    (mixColumns s)[4 * c.val + 1] = a0 ^^^ gmul 0x02 a1 ^^^ gmul 0x03 a2 ^^^ a3 ∧
    (mixColumns s)[4 * c.val + 2] = a0 ^^^ a1 ^^^ gmul 0x02 a2 ^^^ gmul 0x03 a3 ∧
    (mixColumns s)[4 * c.val + 3] = gmul 0x03 a0 ^^^ a1 ^^^ a2 ^^^ gmul 0x02 a3 ∧
    (invMixColumns s)[4 * c.val] = gmul 0x0e a0 ^^^ gmul 0x0b a1 ^^^ gmul 0x0d a2 ^^^ gmul 0x09 a3 ∧
    (invMixColumns s)[4 * c.val + 1] = gmul 0x09 a0 ^^^ gmul 0x0e a1 ^^^ gmul 0x0b a2 ^^^ gmul 0x0d a3 ∧
    (invMixColumns s)[4 * c.val + 2] = gmul 0x0d a0 ^^^ gmul 0x09 a1 ^^^ gmul 0x0e a2 ^^^ gmul 0x0b a3 ∧
    (invMixColumns s)[4 * c.val + 3] = gmul 0x0b a0 ^^^ gmul 0x0d a1 ^^^ gmul 0x09 a2 ^^^ gmul 0x0e a3

/-- R109: each inverse undoes its transform, on both sides, for every state and schedule. -/
def Obligations.InversesUndoTransforms : Prop :=
  ∀ (s : Block) (w : Schedule) (n : Fin 11),
    invSubBytes (subBytes s) = s ∧ subBytes (invSubBytes s) = s ∧
    invShiftRows (shiftRows s) = s ∧ shiftRows (invShiftRows s) = s ∧
    invMixColumns (mixColumns s) = s ∧ mixColumns (invMixColumns s) = s ∧
    addRoundKey (addRoundKey s w n) w n = s

/-- R110: substitution commutes with the row shift, in both directions of the cipher; column mixing does not commute
with key mixing in general. -/
def Obligations.SubstitutionCommutesWithShift : Prop :=
  (∀ s, shiftRows (subBytes s) = subBytes (shiftRows s)) ∧
  (∀ s, invShiftRows (invSubBytes s) = invSubBytes (invShiftRows s)) ∧
  (∃ s w n, mixColumns (addRoundKey s w n) ≠ addRoundKey (mixColumns s) w n) ∧
  (∃ s w n, invMixColumns (addRoundKey s w n) ≠ addRoundKey (invMixColumns s) w n)

/-- R86, R87, R88, R89: a word has its first byte in the most significant place; what RotWord, SubWord and Rcon[1..10]
are; and the words of the schedule: the key, packed big-endian, then each word from the one four back and the one before,
transformed where i mod 4 = 0. -/
def Obligations.KeyExpansionRecurrence : Prop :=
  (∀ a b c d : Byte,
    (wordOf a b c d).toNat = 2 ^ 24 * a.toNat + 2 ^ 16 * b.toNat + 2 ^ 8 * c.toNat + d.toNat ∧
    rotWord (wordOf a b c d) = wordOf b c d a ∧
    subWord (wordOf a b c d) = wordOf (sbox a) (sbox b) (sbox c) (sbox d)) ∧
  (∀ w, rotWord w = w.rotateLeft 8) ∧
  (∃ rc : Nat → Byte, rc 1 = 0x01 ∧ (∀ j, 1 < j → j ≤ 10 → rc j = xtime (rc (j - 1))) ∧
    (∀ j, 1 ≤ j → j ≤ 10 → rcon j = wordOf (rc j) 0x00 0x00 0x00)) ∧
  (rcon 1 = 0x01000000 ∧ rcon 2 = 0x02000000 ∧ rcon 3 = 0x04000000 ∧ rcon 4 = 0x08000000 ∧ rcon 5 = 0x10000000 ∧
    rcon 6 = 0x20000000 ∧ rcon 7 = 0x40000000 ∧ rcon 8 = 0x80000000 ∧ rcon 9 = 0x1b000000 ∧ rcon 10 = 0x36000000) ∧
  ∀ k : Key,
    (∀ i : Fin 4, (keyExpansion k)[i.val] =
      wordOf k[4 * i.val] k[4 * i.val + 1] k[4 * i.val + 2] k[4 * i.val + 3]) ∧
    (∀ i : Fin 40, (keyExpansion k)[i.val + 4] = (keyExpansion k)[i.val] ^^^
      (if (i.val + 4) % 4 = 0 then
        subWord (rotWord (keyExpansion k)[i.val + 3]) ^^^ rcon ((i.val + 4) / 4)
      else (keyExpansion k)[i.val + 3]))

/-- R90: substituting then rotating gives the same word as rotating then substituting. -/
def Obligations.SubWordCommutesWithRotWord : Prop :=
  ∀ t : Word, subWord (rotWord t) = rotWord (subWord t)

/-- R115, R116, R117: the round structure of encryption (`s r` is the state after round r) and of decryption (`s r` is the
state in which round r is undone next, `s 0` the one after round 1 is); decryption undoes encryption and encryption undoes
decryption, for every schedule (so for every key's), and encryption under one schedule is a permutation of the blocks. -/
def Obligations.CipherRoundTrip : Prop :=
  ∀ w : Schedule,
    (∀ b, ∃ s : Nat → Block, s 0 = addRoundKey b w 0 ∧
      (∀ r : Fin 9, s (r.val + 1) =
        addRoundKey (mixColumns (shiftRows (subBytes (s r.val)))) w ⟨r.val + 1, by omega⟩) ∧
      encryptBlock w b = addRoundKey (shiftRows (subBytes (s 9))) w 10) ∧
    (∀ c, ∃ s : Nat → Block, s 9 = addRoundKey c w 10 ∧
      (∀ r : Fin 9, s r.val =
        invMixColumns (addRoundKey (invSubBytes (invShiftRows (s (r.val + 1)))) w ⟨r.val + 1, by omega⟩)) ∧
      decryptBlock w c = addRoundKey (invSubBytes (invShiftRows (s 0))) w 0) ∧
    (∀ b, decryptBlock w (encryptBlock w b) = b) ∧
    (∀ b, encryptBlock w (decryptBlock w b) = b) ∧ Function.Bijective (encryptBlock w)

/-- ENCB and then DECB under the same schedule restores BLK0..BLK3: both commands accepted and completed, no other agent
stepping (42_block_cipher.md R119, corner case). -/
def Obligations.EncbThenDecbRestores : Prop :=
  ∀ s : State, s.turn = .host → s.status.busy = false → s.kv = true →
    ∃ t u v x, exec .encb s = .next t ∧ exec .encb { t with turn := .controller } = .next u ∧
      exec .decb { u with turn := .host } = .next v ∧ exec .decb { v with turn := .controller } = .next x ∧
      u.status.done = true ∧ x.status.done = true ∧ x.blk = s.blk

/-! ### The ECB commands as a whole -/

/-- The net effect of ECBE, ECBEP and ECBD, for every legal assignment of ranges and every interleaving of the agents:
from a state right after acceptance, when BUSY is 0 again, DONE is 1, ERR is 0 and every byte of the buffer is the byte of
the block function of its own original block, every other byte is unchanged (43_ecb_mode.md R125, R137, R138, R139). -/
def Obligations.EcbNetEffect : Prop :=
  ∀ (i : Instr) (s t : State) (evs : List Event), FreshBuffer i s → RunsTo s evs t → t.status.busy = false →
    t.status.done = true ∧ t.status.err = false ∧
    ∀ a, memRead t.mem a = ecbByte (ecbFunction i s.rk) s.mem s.addrl.toNat s.nbl.toNat a

/-- The state right after an idle core accepts ECBE, ECBEP or ECBD without error is one that `EcbNetEffect` speaks of
(43_ecb_mode.md R129, R130, R131; 44_control.md R142). -/
def Obligations.AcceptedBufferIsFresh : Prop :=
  ∀ (i : Instr) (s : State), Legal s → usesBuffer i = true → s.turn = .host → s.status.busy = false →
    check (encode i) s = 0 →
    ∃ t, exec i s = .next t ∧ FreshBuffer i t ∧ t.addrl = s.addr ∧ 16 * t.nbl.toNat = s.len.toNat ∧
      t.rk = s.rk ∧ t.mem = s.mem

/-- R140: ECBEP's buffer equals ECBE's, whatever the partitions and the interleavings. -/
def Obligations.ParallelEqualsSequential : Prop :=
  ∀ (s s' t t' : State) (evs evs' : List Event),
    FreshBuffer .ecbep s → FreshBuffer .ecbe s' →
    s'.mem = s.mem → s'.rk = s.rk → s'.addrl = s.addrl → s'.nbl = s.nbl →
    RunsTo s evs t → RunsTo s' evs' t' → t.status.busy = false → t'.status.busy = false →
    t.mem = t'.mem

/-- R136: under one schedule, two blocks of ECB encryption's result, of one command or of two, are equal exactly when the
blocks they were made from are. -/
def Obligations.EcbDeterminism : Prop :=
  ∀ (i i' : Instr) (s s' t t' : State) (evs evs' : List Event) (m n : Nat),
    i ≠ .ecbd → i' ≠ .ecbd → FreshBuffer i s → FreshBuffer i' s' → s'.rk = s.rk →
    RunsTo s evs t → RunsTo s' evs' t' → t.status.busy = false → t'.status.busy = false →
    m < s.nbl.toNat → n < s'.nbl.toNat →
    (readBlock t.mem (s.addrl.toNat + 16 * m) = readBlock t'.mem (s'.addrl.toNat + 16 * n) ↔
      readBlock s.mem (s.addrl.toNat + 16 * m) = readBlock s'.mem (s'.addrl.toNat + 16 * n))

/-- With no event to come, a command in progress completes: under the model's default order (log entry 4, the model's
choice), within one step per block still to process and one more (70_reset_and_hazards.md R181, R182). -/
def Obligations.DefaultOrderCompletes : Prop :=
  ∀ s : State, Legal s → s.inputs = [] → s.status.busy = true →
    ∃ n t, n ≤ blocksLeft s + 1 ∧ Sys2Proof.core.run n s = .next t ∧ t.status.busy = false

/-! ### The host and data memory -/

/-- R177: a host access to a byte of the buffer of an ECB command in progress is the fault BufferRace. -/
def Obligations.BufferAccessRaces : Prop :=
  ∀ (s : State) (a : Nat) (b : Byte), s.status.busy = true →
    (s.opl = Instr.ecbe.opcode ∨ s.opl = Instr.ecbep.opcode ∨ s.opl = Instr.ecbd.opcode) →
    s.addrl.toNat ≤ a → a < s.addrl.toNat + 16 * s.nbl.toNat → a < 2 ^ s.platform.addrWidth →
    hostMemRead a s = .fault (.bufferRace a) ∧ hostMemWrite a b s = .fault (.bufferRace a)

/-- A host access to a byte of data memory outside the buffer of a command in progress, or while none is, is an ordinary
memory access (20_memory.md R60): the read returns the byte, the write stores it and changes no other byte and nothing
else. That this holds of the bytes MemOK rejects too is the model's reading (log entry 15). -/
def Obligations.OtherBytesAreOrdinaryMemory : Prop :=
  ∀ (s : State) (a : Nat) (b : Byte), Memory.wf s.mem → a < 2 ^ s.platform.addrWidth →
    ¬(s.status.busy = true ∧
      (s.opl = Instr.ecbe.opcode ∨ s.opl = Instr.ecbep.opcode ∨ s.opl = Instr.ecbd.opcode) ∧
      s.addrl.toNat ≤ a ∧ a < s.addrl.toNat + 16 * s.nbl.toNat) →
    hostMemRead a s = .next (memRead s.mem a) ∧
    ∃ t, hostMemWrite a b s = .next t ∧ memRead t.mem a = b ∧
      (∀ x, x ≠ a → memRead t.mem x = memRead s.mem x) ∧ { t with mem := s.mem } = s

/-- The core's own steps and the reset change a byte of data memory only in the buffer of the ECB command in progress,
at an address MemOK admits (10_state.md R42, 20_memory.md R54). -/
def Obligations.CoreChangesOnlyItsBuffer : Prop :=
  ∀ (s t : State) (e : Event) (es : List Event) (a : Nat), Legal s → isCoreEvent e = true →
    s.inputs = e :: es → step s = .next t → memRead t.mem a ≠ memRead s.mem a →
    inBuffer s a = true ∧ a < 2 ^ s.platform.addrWidth ∧ memOK s.platform a = true

/-- POLL (30_encoding.md R77): its two lines read STATUS into the variable and go back to the first while BUSY is 1, past
the second when it is 0; nothing but the host's own state changes. -/
def Obligations.PollWaitsForCompletion : Prop :=
  ∀ (s : State) (l x : Nat), s.platform.wf = true →
    s.host.wordVars.Pairwise (fun c d => c.1 < d.1) →
    s.host.prog[s.host.pc]? = some { label := some l, op := .rd .status x } →
    s.host.prog[s.host.pc + 1]? = some { label := none, op := .bnz x 0 l } →
    labelLine s.host.prog l = some s.host.pc →
    ∃ t u, programStep s = .next t ∧ programStep t = .next u ∧ { u with host := s.host } = s ∧
      u.host.word x = statusWord s ∧ u.host.prog = s.host.prog ∧
      u.host.pc = if s.status.busy then s.host.pc else s.host.pc + 2

/-! ### Whole-machine rules and invariants -/

/-- The state after reset is legal (10_state.md R44). Data memory lists nothing (log entry 5) and the model's own fields are at their first
values (log entries 1, 3, 9, 11). -/
def Obligations.ResetIsLegal : Prop := Legal State.reset

/-- R170, R171: the reset input at any time: every register of the core is 0, KV is 0, every worker's range empty,
CONFIG's parameter unchanged; each byte of the buffer of an ECB command in progress is a free draw, every other byte of
memory unchanged. -/
def Obligations.ResetInput : Prop :=
  ∀ (s : State) (es : List Event), s.inputs = .reset :: es → Memory.wf s.mem →
    let ecb := s.status.busy = true ∧ (s.opl = 4 ∨ s.opl = 5 ∨ s.opl = 6)
    let inside := fun a => s.addrl.toNat ≤ a ∧ a < s.addrl.toNat + 16 * s.nbl.toNat
    ∃ t, step s = .next t ∧ statusWord t = 0 ∧ t.kv = false ∧
      t.addr = 0 ∧ t.len = 0 ∧ t.key = Vector.replicate 4 0 ∧ t.blk = Vector.replicate 4 0 ∧
      t.rk = Vector.replicate 44 0 ∧ t.opl = 0 ∧ t.ecl = 0 ∧ t.addrl = 0 ∧ t.nbl = 0 ∧
      t.workers = List.replicate s.platform.numWorkers { lo := 0, hi := 0, nx := 0 } ∧
      t.platform = s.platform ∧
      (∀ a, ¬(ecb ∧ inside a) → memRead t.mem a = memRead s.mem a) ∧
      (ecb → ∀ a, inside a → memRead t.mem a = Config.freeByte (s.draws + (a - s.addrl.toNat)))

/-- Every step keeps the status register legal: while busy nothing is reported, ERRCODE ≠ 0 exactly when
ERR = 1, DONE and ERR are never both 1, no code above 4 (10_state.md R25, R27; 93_implementation_defined.md U14). -/
def Obligations.StepKeepsStatusLegal : Prop :=
  ∀ s t : State, StatusLegal s → step s = .next t → StatusLegal t

/-- Every step keeps the schedule legal: KV = 1 means RK is the expansion of the key held (10_state.md R36). -/
def Obligations.StepKeepsScheduleLegal : Prop :=
  ∀ s t : State, ScheduleLegal s → step s = .next t → ScheduleLegal t

/-- Every step keeps data memory in its canonical form (10_state.md R42; log entry 5). -/
def Obligations.StepKeepsMemoryCanonical : Prop :=
  ∀ s t : State, Memory.wf s.mem → step s = .next t → Memory.wf t.mem

/-- Every step keeps the whole state legal: parameters, memory, status, schedule and the workers' ranges. -/
def Obligations.StepKeepsLegal : Prop :=
  ∀ s t : State, Legal s → step s = .next t → Legal t

/-- Once a command passed acceptance it cannot fail (60_exceptions.md R156): in a legal state the steps of the core's
agents, and the reset, always answer a next state. That an agent without a step answers the state as it is is the model's
choice (log entry 3). -/
def Obligations.CoreNeverStops : Prop :=
  ∀ (s : State) (e : Event) (es : List Event), Legal s → isCoreEvent e = true → s.inputs = e :: es → Safe s

/-- R147: while a command is in progress no step but a reset changes KV, RK or KEY0..KEY3, except the completion of a
KEYEXP or a ZEROIZE. -/
def Obligations.KeyStateFixedWhileBusy : Prop :=
  ∀ s t : State, s.status.busy = true → step s = .next t → s.inputs.head? ≠ some .reset →
    (t.kv = s.kv ∧ t.rk = s.rk ∧ t.key = s.key) ∨
    (t.status.busy = false ∧ s.ecl = 0 ∧ (s.opl = Instr.keyexp.opcode ∨ s.opl = Instr.zeroize.opcode))

/-- While a command is in progress (44_control.md R144, 70_reset_and_hazards.md R179) no step but a reset changes which command it is, what it latched, or ADDR
and LEN; it ends only by a step of the controller. -/
def Obligations.OneCommandAtATime : Prop :=
  ∀ s t : State, s.status.busy = true → step s = .next t → s.inputs.head? ≠ some .reset →
    t.opl = s.opl ∧ t.ecl = s.ecl ∧ t.addrl = s.addrl ∧ t.nbl = s.nbl ∧ t.addr = s.addr ∧ t.len = s.len ∧
    (t.status.busy = false → t.turn = .controller)

/-- R28: STATUS.KV is KV; no step but a reset sets WIGN unless it is the host's and the core is busy, or clears it but by
accepting a command (BUSY goes from 0 to 1). The turn after a step is the agent that took it (log entry 1). -/
def Obligations.WignChangesOnlyByRule : Prop :=
  (∀ s : State, (statusWord s).getLsbD 3 = s.kv) ∧
  ∀ s t : State, step s = .next t → s.inputs.head? ≠ some .reset →
    (s.status.wign = false → t.status.wign = true → s.status.busy = true ∧ t.turn = .host) ∧
    (s.status.wign = true → t.status.wign = false → s.status.busy = false ∧ t.status.busy = true)
end

