-- ==== Sys2Proof/Laws/Blocks.lean ====
section
/-! SUPPORT. The laws of packing and of the state matrix (00_scope.md R12, R13): reading back what was laid out, and
equality of blocks cell by cell. -/

namespace Sys2Proof.Machine

@[simp] theorem cell_tabulate (f : Fin 4 → Fin 4 → Byte) (r c : Fin 4) : cell (tabulate f) r c = f r c := by
  fin_cases r <;> fin_cases c <;> rfl

/-- Two blocks with the same cells are the same block. -/
theorem block_ext {s t : Block} (h : ∀ r c, cell s r c = cell t r c) : s = t := by
  refine Vector.ext fun i hi => ?_
  have := h ⟨i % 4, by omega⟩ ⟨i / 4, by omega⟩
  simp only [cell, Nat.mod_add_div] at this
  exact this

theorem tabulate_cell (s : Block) : tabulate (cell s) = s := block_ext fun r c => cell_tabulate _ r c

/-- R12: `bytes` undoes `word`. -/
theorem byteOf_wordOf (a b c d : Byte) :
    byteOf (wordOf a b c d) 0 = a ∧ byteOf (wordOf a b c d) 1 = b ∧
    byteOf (wordOf a b c d) 2 = c ∧ byteOf (wordOf a b c d) 3 = d := by
  refine ⟨?_, ?_, ?_, ?_⟩ <;> ext i hi <;> interval_cases i <;>
    simp [byteOf, wordOf]

/-- R12: `word` undoes `bytes`. -/
theorem wordOf_byteOf (w : Word) : wordOf (byteOf w 0) (byteOf w 1) (byteOf w 2) (byteOf w 3) = w := by
  refine BitVec.eq_of_getLsbD_eq fun i hi => ?_
  simp only [wordOf, byteOf, BitVec.getLsbD_or, BitVec.getLsbD_shiftLeft, BitVec.getLsbD_setWidth,
    BitVec.getLsbD_extractLsb', hi]
  rcases (by omega : i < 8 ∨ (8 ≤ i ∧ i < 16) ∨ (16 ≤ i ∧ i < 24) ∨ 24 ≤ i) with h | h | h | h
  · simp [h, show i < 16 by omega, show i < 24 by omega]
  · simp [show ¬ i < 8 by omega, show i < 16 by omega, show i < 24 by omega, show i - 8 < 8 by omega,
      show 8 + (i - 8) = i by omega, show i - 8 < 32 by omega]
  · simp [show ¬ i < 16 by omega, show ¬ i - 8 < 8 by omega, show i < 24 by omega, show i - 16 < 8 by omega,
      show 16 + (i - 16) = i by omega, show i - 16 < 32 by omega, show ¬ i < 8 by omega]
  · simp [show ¬ i < 16 by omega, show ¬ i - 8 < 8 by omega, show ¬ i < 24 by omega, show ¬ i - 16 < 8 by omega,
      show 24 + (i - 24) = i by omega, show i - 24 < 32 by omega, show ¬ i < 8 by omega, show i - 24 < 8 by omega]

/-- R12: byte r of a word, whichever row it is. -/
theorem byteOf_wordOf_row (f : Fin 4 → Byte) (r : Fin 4) : byteOf (wordOf (f 0) (f 1) (f 2) (f 3)) r = f r := by
  have h := byteOf_wordOf (f 0) (f 1) (f 2) (f 3)
  fin_cases r <;> simp [h]

/-- Word j of the block of four words is the j-th of them. -/
theorem columnWord_blockOfQuad (q : Quad) (j : Fin 4) : columnWord (blockOfQuad q) j = q[j] := by
  simp only [columnWord, blockOfQuad, cell_tabulate, wordOf_byteOf]

theorem quadOfBlock_blockOfQuad (q : Quad) : quadOfBlock (blockOfQuad q) = q := by
  refine Vector.ext fun i hi => ?_
  interval_cases i <;> exact columnWord_blockOfQuad q _

theorem blockOfQuad_quadOfBlock (b : Block) : blockOfQuad (quadOfBlock b) = b := by
  refine block_ext fun r c => ?_
  simp only [blockOfQuad, cell_tabulate]
  have : (quadOfBlock b)[c] = columnWord b c := by fin_cases c <;> rfl
  rw [this]
  exact byteOf_wordOf_row (fun r => cell b r c) r

end Sys2Proof.Machine
end

