-- ==== Sys2Proof/Laws/Codec.lean ====
section
/-! SUPPORT. The laws of decoding and encoding (30_encoding.md R70 to R74). -/

namespace Sys2Proof

/-- R70: the fields of a word built from fields. -/
theorem ofWord_toWord (c : CmdWord) : CmdWord.ofWord c.toWord = c := by
  obtain ⟨op, rsv⟩ := c
  simp only [CmdWord.ofWord, CmdWord.toWord, CmdWord.mk.injEq]
  constructor <;> refine BitVec.eq_of_getLsbD_eq fun i hi => ?_
  · simp [hi, show i < 32 by omega]
  · simp [hi, show 4 + i < 32 by omega]

/-- R70: a word is its fields. -/
theorem toWord_ofWord (v : Word) : (CmdWord.ofWord v).toWord = v := by
  refine BitVec.eq_of_getLsbD_eq fun j hj => ?_
  simp only [CmdWord.toWord, CmdWord.ofWord, BitVec.getLsbD_or, BitVec.getLsbD_shiftLeft,
    BitVec.getLsbD_setWidth, BitVec.getLsbD_extractLsb', hj]
  by_cases h4 : j < 4
  · simp [h4]
  · simp [h4, show 4 + (j - 4) = j by omega, show j - 4 < 32 by omega, show j - 4 < 28 by omega]

@[simp] theorem ofOpcode_opcode (i : Instr) : Instr.ofOpcode i.opcode = some i := by cases i <;> rfl

/-- R72: an opcode that names a command is that command's. -/
theorem opcode_of_ofOpcode {op : Nibble} {i : Instr} (h : Instr.ofOpcode op = some i) : i.opcode = op := by
  revert h; cases i <;> revert op <;> decide

/-- R71, R72: the fields of a command's own word. -/
@[simp] theorem ofWord_encode (i : Instr) : CmdWord.ofWord (encode i) = { op := i.opcode, rsv := 0 } :=
  ofWord_toWord _

/-- R71: what a word that spells a command holds. -/
theorem fields_of_decode {v : Word} {i : Instr} (h : decode v = .command i) :
    (CmdWord.ofWord v).rsv = 0 ∧ Instr.ofOpcode (CmdWord.ofWord v).op = some i := by
  unfold decode decodeFields at h
  split at h
  · next hr =>
    split at h
    · next j hj => cases h; exact ⟨hr, hj⟩
    · cases h
  · cases h

end Sys2Proof
end

