-- ==== Sys2Proof/Laws/Memory.lean ====
section
/-! SUPPORT. The laws of data memory: a read after a write, what a write leaves alone, and that every memory operation
keeps the canonical form. -/

namespace Sys2Proof.Machine

/-- Every cell of the memory lies above an address. -/
abbrev Above (a : Nat) (m : List Host.Cell) : Prop := ∀ c ∈ m, a < c.1

@[simp] theorem memRead_nil (a : Nat) : memRead [] a = unlistedByte := rfl

theorem memRead_cons (k : Nat) (v : Byte) (m : List Host.Cell) (a : Nat) :
    memRead ((k, v) :: m) a = if a = k then v else memRead m a := rfl

theorem mem_cellOf {c : Host.Cell} {a : Nat} {b : Byte} (h : c ∈ cellOf a b) :
    c.1 = a ∧ c.2 ≠ unlistedByte := by
  unfold cellOf at h
  split at h
  · simp at h
  · simp at h; subst h; exact ⟨rfl, by assumption⟩

theorem memRead_cellOf_append_other {a x : Nat} (h : x ≠ a) (b : Byte) (m : List Host.Cell) :
    memRead (cellOf a b ++ m) x = memRead m x := by
  unfold cellOf; split
  · rfl
  · simp [memRead_cons, h]

theorem memRead_above {a : Nat} : ∀ {m : List Host.Cell}, Above a m → memRead m a = unlistedByte
  | [], _ => rfl
  | (k, v) :: m, h => by
    have hk : a < k := h (k, v) (by simp)
    rw [memRead_cons, if_neg (by omega), memRead_above fun c hc => h c (by simp [hc])]

theorem memRead_cellOf_append_same {a : Nat} (b : Byte) {m : List Host.Cell} (h : Above a m) :
    memRead (cellOf a b ++ m) a = b := by
  unfold cellOf; split
  · next hb => subst hb; simpa using memRead_above h
  · simp [memRead_cons]

/-- A write leaves every other address alone, whatever the list. -/
theorem memRead_memWrite_other {a x : Nat} (h : x ≠ a) (b : Byte) :
    ∀ m : List Host.Cell, memRead (memWrite m a b) x = memRead m x
  | [] => by simpa [memWrite] using memRead_cellOf_append_other h b []
  | (k, v) :: m => by
    unfold memWrite
    split
    · exact memRead_cellOf_append_other h b _
    · split
      · next _ hk => rw [memRead_cellOf_append_other h, memRead_cons, if_neg (by omega)]
      · rw [memRead_cons, memRead_cons, memRead_memWrite_other h b m]

theorem wf_nil : Memory.wf [] := ⟨List.Pairwise.nil, by simp⟩

theorem wf_tail {c : Host.Cell} {m : List Host.Cell} (h : Memory.wf (c :: m)) : Memory.wf m :=
  ⟨(List.pairwise_cons.1 h.1).2, fun d hd => h.2 d (by simp [hd])⟩

theorem wf_above {c : Host.Cell} {m : List Host.Cell} (h : Memory.wf (c :: m)) : Above c.1 m :=
  (List.pairwise_cons.1 h.1).1

/-- A read of the address written gives the byte written. -/
theorem memRead_memWrite_same (a : Nat) (b : Byte) :
    ∀ {m : List Host.Cell}, Memory.wf m → memRead (memWrite m a b) a = b
  | [], _ => by simpa [memWrite] using memRead_cellOf_append_same (a := a) b (m := []) (by simp)
  | (k, v) :: m, h => by
    have hk := wf_above h
    unfold memWrite
    split
    · next hlt =>
      refine memRead_cellOf_append_same b fun c hc => ?_
      rcases List.mem_cons.1 hc with rfl | hc
      · exact hlt
      · exact hlt.trans (hk c hc)
    · split
      · next _ he => subst he; exact memRead_cellOf_append_same b hk
      · next _ he => rw [memRead_cons, if_neg he, memRead_memWrite_same a b (wf_tail h)]

theorem mem_memWrite {a : Nat} {b : Byte} {c : Host.Cell} :
    ∀ {m : List Host.Cell}, c ∈ memWrite m a b → (c.1 = a ∧ c.2 ≠ unlistedByte) ∨ c ∈ m
  | [], h => .inl (mem_cellOf h)
  | (k, v) :: m, h => by
    unfold memWrite at h
    split at h
    · rcases List.mem_append.1 h with h | h
      · exact .inl (mem_cellOf h)
      · exact .inr h
    · split at h
      · rcases List.mem_append.1 h with h | h
        · exact .inl (mem_cellOf h)
        · exact .inr (by simp [h])
      · rcases List.mem_cons.1 h with rfl | h
        · exact .inr (by simp)
        · exact (mem_memWrite h).imp id fun h => by simp [h]

theorem cellOf_append_wf {a : Nat} (b : Byte) {m : List Host.Cell} (h : Memory.wf m) (ha : Above a m) :
    Memory.wf (cellOf a b ++ m) := by
  unfold cellOf; split
  · exact h
  · next hb =>
    refine ⟨List.pairwise_cons.2 ⟨ha, h.1⟩, fun c hc => ?_⟩
    rcases List.mem_cons.1 hc with rfl | hc
    · exact hb
    · exact h.2 c hc

/-- A write keeps the canonical form. -/
theorem memWrite_wf (a : Nat) (b : Byte) : ∀ {m : List Host.Cell}, Memory.wf m → Memory.wf (memWrite m a b)
  | [], _ => by simpa [memWrite] using cellOf_append_wf (a := a) b wf_nil (by simp)
  | (k, v) :: m, h => by
    have hk := wf_above h
    unfold memWrite
    split
    · next hlt =>
      refine cellOf_append_wf b h fun c hc => ?_
      rcases List.mem_cons.1 hc with rfl | hc
      · exact hlt
      · exact hlt.trans (hk c hc)
    · split
      · next _ he => subst he; exact cellOf_append_wf b (wf_tail h) hk
      · next h1 h2 =>
        refine ⟨List.pairwise_cons.2 ⟨fun c hc => ?_, (memWrite_wf a b (wf_tail h)).1⟩, fun c hc => ?_⟩
        · rcases mem_memWrite hc with ⟨rfl, _⟩ | hc
          · show k < c.1; omega
          · exact hk c hc
        · rcases List.mem_cons.1 hc with rfl | hc
          · exact h.2 _ (by simp)
          · exact (memWrite_wf a b (wf_tail h)).2 c hc

theorem writeBytes_wf : ∀ {m : List Host.Cell} (a : Nat) (bs : List Byte),
    Memory.wf m → Memory.wf (writeBytes m a bs)
  | _, _, [], h => h
  | _, a, b :: bs, h => writeBytes_wf (a + 1) bs (memWrite_wf a b h)

/-- What a byte string stored leaves alone. -/
theorem memRead_writeBytes_outside {x : Nat} : ∀ (m : List Host.Cell) (a : Nat) (bs : List Byte),
    (x < a ∨ a + bs.length ≤ x) → memRead (writeBytes m a bs) x = memRead m x
  | _, _, [], _ => rfl
  | m, a, b :: bs, h => by
    simp only [List.length_cons] at h
    rw [writeBytes, memRead_writeBytes_outside _ _ bs (by omega), memRead_memWrite_other (by omega)]

/-- A byte string stored reads back. -/
theorem memRead_writeBytes_inside : ∀ {m : List Host.Cell} (a : Nat) (bs : List Byte) (i : Nat) (hi : i < bs.length),
    Memory.wf m → memRead (writeBytes m a bs) (a + i) = bs[i]
  | m, a, b :: bs, 0, _, h => by
    rw [writeBytes, memRead_writeBytes_outside _ _ _ (by omega), Nat.add_zero, memRead_memWrite_same a b h]
    rfl
  | m, a, b :: bs, i + 1, hi, h => by
    have := memRead_writeBytes_inside (a + 1) bs i (by simpa using hi) (memWrite_wf a b h)
    rw [writeBytes, ← Nat.add_assoc, Nat.add_right_comm]
    simpa using this

theorem mem_writeBytes {c : Host.Cell} : ∀ {m : List Host.Cell} {a : Nat} {bs : List Byte},
    c ∈ writeBytes m a bs → (a ≤ c.1 ∧ c.1 < a + bs.length) ∨ c ∈ m
  | _, _, [], h => .inr h
  | m, a, b :: bs, h => by
    rcases mem_writeBytes (bs := bs) h with ⟨h1, h2⟩ | h
    · exact .inl ⟨by omega, by simp only [List.length_cons]; omega⟩
    · rcases mem_memWrite h with ⟨h, _⟩ | h
      · exact .inl ⟨by omega, by simp only [List.length_cons]; omega⟩
      · exact .inr h

theorem writeBlock_wf {m : List Host.Cell} (a : Nat) (b : Block) (h : Memory.wf m) :
    Memory.wf (writeBlock m a b) := writeBytes_wf a _ h

theorem memRead_writeBlock_outside {m : List Host.Cell} {a x : Nat} (b : Block)
    (h : x < a ∨ a + 16 ≤ x) : memRead (writeBlock m a b) x = memRead m x :=
  memRead_writeBytes_outside m a _ (by simpa using h)

theorem memRead_writeBlock_inside {m : List Host.Cell} (a : Nat) (b : Block) (i : Nat) (hi : i < 16)
    (h : Memory.wf m) : memRead (writeBlock m a b) (a + i) = b[i] := by
  rw [writeBlock, memRead_writeBytes_inside a b.toList i (by simpa using hi) h, Vector.getElem_toList]

theorem mem_writeBlock {c : Host.Cell} {m : List Host.Cell} {a : Nat} {b : Block}
    (h : c ∈ writeBlock m a b) : (a ≤ c.1 ∧ c.1 < a + 16) ∨ c ∈ m := by
  simpa using mem_writeBytes h

theorem drawBytes_wf {m : List Host.Cell} (a d : Nat) (h : Memory.wf m) :
    ∀ n, Memory.wf (drawBytes m a d n)
  | 0 => h
  | n + 1 => memWrite_wf _ _ (drawBytes_wf a d h n)

theorem memRead_drawBytes_outside {m : List Host.Cell} {a x : Nat} (d : Nat) :
    ∀ n, (x < a ∨ a + n ≤ x) → memRead (drawBytes m a d n) x = memRead m x
  | 0, _ => rfl
  | n + 1, h => by
    rw [drawBytes, memRead_memWrite_other (by omega), memRead_drawBytes_outside d n (by omega)]

theorem mem_drawBytes {c : Host.Cell} {m : List Host.Cell} {a d : Nat} :
    ∀ {n}, c ∈ drawBytes m a d n → (a ≤ c.1 ∧ c.1 < a + n) ∨ c ∈ m
  | 0, h => .inr h
  | n + 1, h => by
    rcases mem_memWrite h with ⟨h, _⟩ | h
    · exact .inl (by omega)
    · rcases mem_drawBytes h with h | h
      · exact .inl (by omega)
      · exact .inr h

theorem reset_mem_wf : Memory.wf State.reset.mem := wf_nil

/-- Two canonical memories that read alike are the same list. -/
theorem memory_ext : ∀ {m n : List Host.Cell}, Memory.wf m → Memory.wf n →
    (∀ a, memRead m a = memRead n a) → m = n
  | [], [], _, _, _ => rfl
  | [], (k, v) :: n, _, hn, h => by
    have := h k; rw [memRead_cons, if_pos rfl] at this
    exact absurd this.symm (hn.2 (k, v) (by simp))
  | (k, v) :: m, [], hm, _, h => by
    have := h k; rw [memRead_cons, if_pos rfl] at this
    exact absurd this (hm.2 (k, v) (by simp))
  | (k, v) :: m, (l, w) :: n, hm, hn, h => by
    have hv := hm.2 (k, v) (by simp)
    have hw := hn.2 (l, w) (by simp)
    have am := wf_above hm
    have an := wf_above hn
    have hkl : k = l := by
      rcases Nat.lt_trichotomy k l with hlt | he | hlt
      · have := h k
        rw [memRead_cons, if_pos rfl, memRead_above] at this
        · exact absurd this hv
        · intro c hc
          rcases List.mem_cons.1 hc with rfl | hc
          · exact hlt
          · exact hlt.trans (an c hc)
      · exact he
      · have := h l
        rw [memRead_cons l, if_pos rfl, memRead_above] at this
        · exact absurd this.symm hw
        · intro c hc
          rcases List.mem_cons.1 hc with rfl | hc
          · exact hlt
          · exact hlt.trans (am c hc)
    subst hkl
    have hvw : v = w := by simpa [memRead_cons] using h k
    subst hvw
    have : m = n := memory_ext (wf_tail hm) (wf_tail hn) fun a => by
      by_cases ha : a = k
      · subst ha; rw [memRead_above am, memRead_above an]
      · simpa [memRead_cons, ha] using h a
    rw [this]

/-- R15, R50: byte i of a block read from memory. -/
theorem readBlock_get (m : List Host.Cell) (a : Nat) (i : Fin 16) : (readBlock m a)[i] = memRead m (a + i.val) := by
  fin_cases i <;> rfl

/-- A block with the bytes that memory holds is the block read. -/
theorem eq_readBlock {m : List Host.Cell} {a : Nat} {b : Block} (h : ∀ j : Fin 16, b[j] = memRead m (a + j.val)) :
    b = readBlock m a := by
  refine Vector.ext fun i hi => ?_
  exact (h ⟨i, hi⟩).trans (readBlock_get m a ⟨i, hi⟩).symm

end Sys2Proof.Machine
end

