-- ==== Sys2Proof/Laws/State.lean ====
section
/-! SUPPORT. One lemma per field and named update of State, so that no proof unfolds a record update. -/

namespace Sys2Proof.Machine.State

variable (s : State)

section setStatus_fields
variable (x : Status)
@[simp] theorem setStatus_platform : (s.setStatus x).platform = s.platform := rfl
@[simp] theorem setStatus_status : (s.setStatus x).status = x := rfl
@[simp] theorem setStatus_kv : (s.setStatus x).kv = s.kv := rfl
@[simp] theorem setStatus_addr : (s.setStatus x).addr = s.addr := rfl
@[simp] theorem setStatus_len : (s.setStatus x).len = s.len := rfl
@[simp] theorem setStatus_key : (s.setStatus x).key = s.key := rfl
@[simp] theorem setStatus_blk : (s.setStatus x).blk = s.blk := rfl
@[simp] theorem setStatus_rk : (s.setStatus x).rk = s.rk := rfl
@[simp] theorem setStatus_opl : (s.setStatus x).opl = s.opl := rfl
@[simp] theorem setStatus_ecl : (s.setStatus x).ecl = s.ecl := rfl
@[simp] theorem setStatus_addrl : (s.setStatus x).addrl = s.addrl := rfl
@[simp] theorem setStatus_nbl : (s.setStatus x).nbl = s.nbl := rfl
@[simp] theorem setStatus_workers : (s.setStatus x).workers = s.workers := rfl
@[simp] theorem setStatus_mem : (s.setStatus x).mem = s.mem := rfl
@[simp] theorem setStatus_inputs : (s.setStatus x).inputs = s.inputs := rfl
@[simp] theorem setStatus_turn : (s.setStatus x).turn = s.turn := rfl
@[simp] theorem setStatus_draws : (s.setStatus x).draws = s.draws := rfl
@[simp] theorem setStatus_host : (s.setStatus x).host = s.host := rfl
end setStatus_fields

section setAddr_fields
variable (v : Word)
@[simp] theorem setAddr_platform : (s.setAddr v).platform = s.platform := rfl
@[simp] theorem setAddr_status : (s.setAddr v).status = s.status := rfl
@[simp] theorem setAddr_kv : (s.setAddr v).kv = s.kv := rfl
@[simp] theorem setAddr_addr : (s.setAddr v).addr = v := rfl
@[simp] theorem setAddr_len : (s.setAddr v).len = s.len := rfl
@[simp] theorem setAddr_key : (s.setAddr v).key = s.key := rfl
@[simp] theorem setAddr_blk : (s.setAddr v).blk = s.blk := rfl
@[simp] theorem setAddr_rk : (s.setAddr v).rk = s.rk := rfl
@[simp] theorem setAddr_opl : (s.setAddr v).opl = s.opl := rfl
@[simp] theorem setAddr_ecl : (s.setAddr v).ecl = s.ecl := rfl
@[simp] theorem setAddr_addrl : (s.setAddr v).addrl = s.addrl := rfl
@[simp] theorem setAddr_nbl : (s.setAddr v).nbl = s.nbl := rfl
@[simp] theorem setAddr_workers : (s.setAddr v).workers = s.workers := rfl
@[simp] theorem setAddr_mem : (s.setAddr v).mem = s.mem := rfl
@[simp] theorem setAddr_inputs : (s.setAddr v).inputs = s.inputs := rfl
@[simp] theorem setAddr_turn : (s.setAddr v).turn = s.turn := rfl
@[simp] theorem setAddr_draws : (s.setAddr v).draws = s.draws := rfl
@[simp] theorem setAddr_host : (s.setAddr v).host = s.host := rfl
end setAddr_fields

section setLen_fields
variable (v : Word)
@[simp] theorem setLen_platform : (s.setLen v).platform = s.platform := rfl
@[simp] theorem setLen_status : (s.setLen v).status = s.status := rfl
@[simp] theorem setLen_kv : (s.setLen v).kv = s.kv := rfl
@[simp] theorem setLen_addr : (s.setLen v).addr = s.addr := rfl
@[simp] theorem setLen_len : (s.setLen v).len = v := rfl
@[simp] theorem setLen_key : (s.setLen v).key = s.key := rfl
@[simp] theorem setLen_blk : (s.setLen v).blk = s.blk := rfl
@[simp] theorem setLen_rk : (s.setLen v).rk = s.rk := rfl
@[simp] theorem setLen_opl : (s.setLen v).opl = s.opl := rfl
@[simp] theorem setLen_ecl : (s.setLen v).ecl = s.ecl := rfl
@[simp] theorem setLen_addrl : (s.setLen v).addrl = s.addrl := rfl
@[simp] theorem setLen_nbl : (s.setLen v).nbl = s.nbl := rfl
@[simp] theorem setLen_workers : (s.setLen v).workers = s.workers := rfl
@[simp] theorem setLen_mem : (s.setLen v).mem = s.mem := rfl
@[simp] theorem setLen_inputs : (s.setLen v).inputs = s.inputs := rfl
@[simp] theorem setLen_turn : (s.setLen v).turn = s.turn := rfl
@[simp] theorem setLen_draws : (s.setLen v).draws = s.draws := rfl
@[simp] theorem setLen_host : (s.setLen v).host = s.host := rfl
end setLen_fields

section setKey_fields
variable (k : Quad) (b : Bool)
@[simp] theorem setKey_platform : (s.setKey k b).platform = s.platform := rfl
@[simp] theorem setKey_status : (s.setKey k b).status = s.status := rfl
@[simp] theorem setKey_kv : (s.setKey k b).kv = b := rfl
@[simp] theorem setKey_addr : (s.setKey k b).addr = s.addr := rfl
@[simp] theorem setKey_len : (s.setKey k b).len = s.len := rfl
@[simp] theorem setKey_key : (s.setKey k b).key = k := rfl
@[simp] theorem setKey_blk : (s.setKey k b).blk = s.blk := rfl
@[simp] theorem setKey_rk : (s.setKey k b).rk = s.rk := rfl
@[simp] theorem setKey_opl : (s.setKey k b).opl = s.opl := rfl
@[simp] theorem setKey_ecl : (s.setKey k b).ecl = s.ecl := rfl
@[simp] theorem setKey_addrl : (s.setKey k b).addrl = s.addrl := rfl
@[simp] theorem setKey_nbl : (s.setKey k b).nbl = s.nbl := rfl
@[simp] theorem setKey_workers : (s.setKey k b).workers = s.workers := rfl
@[simp] theorem setKey_mem : (s.setKey k b).mem = s.mem := rfl
@[simp] theorem setKey_inputs : (s.setKey k b).inputs = s.inputs := rfl
@[simp] theorem setKey_turn : (s.setKey k b).turn = s.turn := rfl
@[simp] theorem setKey_draws : (s.setKey k b).draws = s.draws := rfl
@[simp] theorem setKey_host : (s.setKey k b).host = s.host := rfl
end setKey_fields

section setBlk_fields
variable (q : Quad)
@[simp] theorem setBlk_platform : (s.setBlk q).platform = s.platform := rfl
@[simp] theorem setBlk_status : (s.setBlk q).status = s.status := rfl
@[simp] theorem setBlk_kv : (s.setBlk q).kv = s.kv := rfl
@[simp] theorem setBlk_addr : (s.setBlk q).addr = s.addr := rfl
@[simp] theorem setBlk_len : (s.setBlk q).len = s.len := rfl
@[simp] theorem setBlk_key : (s.setBlk q).key = s.key := rfl
@[simp] theorem setBlk_blk : (s.setBlk q).blk = q := rfl
@[simp] theorem setBlk_rk : (s.setBlk q).rk = s.rk := rfl
@[simp] theorem setBlk_opl : (s.setBlk q).opl = s.opl := rfl
@[simp] theorem setBlk_ecl : (s.setBlk q).ecl = s.ecl := rfl
@[simp] theorem setBlk_addrl : (s.setBlk q).addrl = s.addrl := rfl
@[simp] theorem setBlk_nbl : (s.setBlk q).nbl = s.nbl := rfl
@[simp] theorem setBlk_workers : (s.setBlk q).workers = s.workers := rfl
@[simp] theorem setBlk_mem : (s.setBlk q).mem = s.mem := rfl
@[simp] theorem setBlk_inputs : (s.setBlk q).inputs = s.inputs := rfl
@[simp] theorem setBlk_turn : (s.setBlk q).turn = s.turn := rfl
@[simp] theorem setBlk_draws : (s.setBlk q).draws = s.draws := rfl
@[simp] theorem setBlk_host : (s.setBlk q).host = s.host := rfl
end setBlk_fields

section setSchedule_fields
variable (w : Schedule) (b : Bool)
@[simp] theorem setSchedule_platform : (s.setSchedule w b).platform = s.platform := rfl
@[simp] theorem setSchedule_status : (s.setSchedule w b).status = s.status := rfl
@[simp] theorem setSchedule_kv : (s.setSchedule w b).kv = b := rfl
@[simp] theorem setSchedule_addr : (s.setSchedule w b).addr = s.addr := rfl
@[simp] theorem setSchedule_len : (s.setSchedule w b).len = s.len := rfl
@[simp] theorem setSchedule_key : (s.setSchedule w b).key = s.key := rfl
@[simp] theorem setSchedule_blk : (s.setSchedule w b).blk = s.blk := rfl
@[simp] theorem setSchedule_rk : (s.setSchedule w b).rk = w := rfl
@[simp] theorem setSchedule_opl : (s.setSchedule w b).opl = s.opl := rfl
@[simp] theorem setSchedule_ecl : (s.setSchedule w b).ecl = s.ecl := rfl
@[simp] theorem setSchedule_addrl : (s.setSchedule w b).addrl = s.addrl := rfl
@[simp] theorem setSchedule_nbl : (s.setSchedule w b).nbl = s.nbl := rfl
@[simp] theorem setSchedule_workers : (s.setSchedule w b).workers = s.workers := rfl
@[simp] theorem setSchedule_mem : (s.setSchedule w b).mem = s.mem := rfl
@[simp] theorem setSchedule_inputs : (s.setSchedule w b).inputs = s.inputs := rfl
@[simp] theorem setSchedule_turn : (s.setSchedule w b).turn = s.turn := rfl
@[simp] theorem setSchedule_draws : (s.setSchedule w b).draws = s.draws := rfl
@[simp] theorem setSchedule_host : (s.setSchedule w b).host = s.host := rfl
end setSchedule_fields

section setLatches_fields
variable (op e : Nibble) (a : Word) (n : BlockIndex) (ws : List Worker)
@[simp] theorem setLatches_platform : (s.setLatches op e a n ws).platform = s.platform := rfl
@[simp] theorem setLatches_status : (s.setLatches op e a n ws).status = s.status := rfl
@[simp] theorem setLatches_kv : (s.setLatches op e a n ws).kv = s.kv := rfl
@[simp] theorem setLatches_addr : (s.setLatches op e a n ws).addr = s.addr := rfl
@[simp] theorem setLatches_len : (s.setLatches op e a n ws).len = s.len := rfl
@[simp] theorem setLatches_key : (s.setLatches op e a n ws).key = s.key := rfl
@[simp] theorem setLatches_blk : (s.setLatches op e a n ws).blk = s.blk := rfl
@[simp] theorem setLatches_rk : (s.setLatches op e a n ws).rk = s.rk := rfl
@[simp] theorem setLatches_opl : (s.setLatches op e a n ws).opl = op := rfl
@[simp] theorem setLatches_ecl : (s.setLatches op e a n ws).ecl = e := rfl
@[simp] theorem setLatches_addrl : (s.setLatches op e a n ws).addrl = a := rfl
@[simp] theorem setLatches_nbl : (s.setLatches op e a n ws).nbl = n := rfl
@[simp] theorem setLatches_workers : (s.setLatches op e a n ws).workers = ws := rfl
@[simp] theorem setLatches_mem : (s.setLatches op e a n ws).mem = s.mem := rfl
@[simp] theorem setLatches_inputs : (s.setLatches op e a n ws).inputs = s.inputs := rfl
@[simp] theorem setLatches_turn : (s.setLatches op e a n ws).turn = s.turn := rfl
@[simp] theorem setLatches_draws : (s.setLatches op e a n ws).draws = s.draws := rfl
@[simp] theorem setLatches_host : (s.setLatches op e a n ws).host = s.host := rfl
end setLatches_fields

section setWorkers_fields
variable (ws : List Worker)
@[simp] theorem setWorkers_platform : (s.setWorkers ws).platform = s.platform := rfl
@[simp] theorem setWorkers_status : (s.setWorkers ws).status = s.status := rfl
@[simp] theorem setWorkers_kv : (s.setWorkers ws).kv = s.kv := rfl
@[simp] theorem setWorkers_addr : (s.setWorkers ws).addr = s.addr := rfl
@[simp] theorem setWorkers_len : (s.setWorkers ws).len = s.len := rfl
@[simp] theorem setWorkers_key : (s.setWorkers ws).key = s.key := rfl
@[simp] theorem setWorkers_blk : (s.setWorkers ws).blk = s.blk := rfl
@[simp] theorem setWorkers_rk : (s.setWorkers ws).rk = s.rk := rfl
@[simp] theorem setWorkers_opl : (s.setWorkers ws).opl = s.opl := rfl
@[simp] theorem setWorkers_ecl : (s.setWorkers ws).ecl = s.ecl := rfl
@[simp] theorem setWorkers_addrl : (s.setWorkers ws).addrl = s.addrl := rfl
@[simp] theorem setWorkers_nbl : (s.setWorkers ws).nbl = s.nbl := rfl
@[simp] theorem setWorkers_workers : (s.setWorkers ws).workers = ws := rfl
@[simp] theorem setWorkers_mem : (s.setWorkers ws).mem = s.mem := rfl
@[simp] theorem setWorkers_inputs : (s.setWorkers ws).inputs = s.inputs := rfl
@[simp] theorem setWorkers_turn : (s.setWorkers ws).turn = s.turn := rfl
@[simp] theorem setWorkers_draws : (s.setWorkers ws).draws = s.draws := rfl
@[simp] theorem setWorkers_host : (s.setWorkers ws).host = s.host := rfl
end setWorkers_fields

section setMem_fields
variable (m : List Host.Cell)
@[simp] theorem setMem_platform : (s.setMem m).platform = s.platform := rfl
@[simp] theorem setMem_status : (s.setMem m).status = s.status := rfl
@[simp] theorem setMem_kv : (s.setMem m).kv = s.kv := rfl
@[simp] theorem setMem_addr : (s.setMem m).addr = s.addr := rfl
@[simp] theorem setMem_len : (s.setMem m).len = s.len := rfl
@[simp] theorem setMem_key : (s.setMem m).key = s.key := rfl
@[simp] theorem setMem_blk : (s.setMem m).blk = s.blk := rfl
@[simp] theorem setMem_rk : (s.setMem m).rk = s.rk := rfl
@[simp] theorem setMem_opl : (s.setMem m).opl = s.opl := rfl
@[simp] theorem setMem_ecl : (s.setMem m).ecl = s.ecl := rfl
@[simp] theorem setMem_addrl : (s.setMem m).addrl = s.addrl := rfl
@[simp] theorem setMem_nbl : (s.setMem m).nbl = s.nbl := rfl
@[simp] theorem setMem_workers : (s.setMem m).workers = s.workers := rfl
@[simp] theorem setMem_mem : (s.setMem m).mem = m := rfl
@[simp] theorem setMem_inputs : (s.setMem m).inputs = s.inputs := rfl
@[simp] theorem setMem_turn : (s.setMem m).turn = s.turn := rfl
@[simp] theorem setMem_draws : (s.setMem m).draws = s.draws := rfl
@[simp] theorem setMem_host : (s.setMem m).host = s.host := rfl
end setMem_fields

section setInputs_fields
variable (es : List Event)
@[simp] theorem setInputs_platform : (s.setInputs es).platform = s.platform := rfl
@[simp] theorem setInputs_status : (s.setInputs es).status = s.status := rfl
@[simp] theorem setInputs_kv : (s.setInputs es).kv = s.kv := rfl
@[simp] theorem setInputs_addr : (s.setInputs es).addr = s.addr := rfl
@[simp] theorem setInputs_len : (s.setInputs es).len = s.len := rfl
@[simp] theorem setInputs_key : (s.setInputs es).key = s.key := rfl
@[simp] theorem setInputs_blk : (s.setInputs es).blk = s.blk := rfl
@[simp] theorem setInputs_rk : (s.setInputs es).rk = s.rk := rfl
@[simp] theorem setInputs_opl : (s.setInputs es).opl = s.opl := rfl
@[simp] theorem setInputs_ecl : (s.setInputs es).ecl = s.ecl := rfl
@[simp] theorem setInputs_addrl : (s.setInputs es).addrl = s.addrl := rfl
@[simp] theorem setInputs_nbl : (s.setInputs es).nbl = s.nbl := rfl
@[simp] theorem setInputs_workers : (s.setInputs es).workers = s.workers := rfl
@[simp] theorem setInputs_mem : (s.setInputs es).mem = s.mem := rfl
@[simp] theorem setInputs_inputs : (s.setInputs es).inputs = es := rfl
@[simp] theorem setInputs_turn : (s.setInputs es).turn = s.turn := rfl
@[simp] theorem setInputs_draws : (s.setInputs es).draws = s.draws := rfl
@[simp] theorem setInputs_host : (s.setInputs es).host = s.host := rfl
end setInputs_fields

section setTurn_fields
variable (a : Agent)
@[simp] theorem setTurn_platform : (s.setTurn a).platform = s.platform := rfl
@[simp] theorem setTurn_status : (s.setTurn a).status = s.status := rfl
@[simp] theorem setTurn_kv : (s.setTurn a).kv = s.kv := rfl
@[simp] theorem setTurn_addr : (s.setTurn a).addr = s.addr := rfl
@[simp] theorem setTurn_len : (s.setTurn a).len = s.len := rfl
@[simp] theorem setTurn_key : (s.setTurn a).key = s.key := rfl
@[simp] theorem setTurn_blk : (s.setTurn a).blk = s.blk := rfl
@[simp] theorem setTurn_rk : (s.setTurn a).rk = s.rk := rfl
@[simp] theorem setTurn_opl : (s.setTurn a).opl = s.opl := rfl
@[simp] theorem setTurn_ecl : (s.setTurn a).ecl = s.ecl := rfl
@[simp] theorem setTurn_addrl : (s.setTurn a).addrl = s.addrl := rfl
@[simp] theorem setTurn_nbl : (s.setTurn a).nbl = s.nbl := rfl
@[simp] theorem setTurn_workers : (s.setTurn a).workers = s.workers := rfl
@[simp] theorem setTurn_mem : (s.setTurn a).mem = s.mem := rfl
@[simp] theorem setTurn_inputs : (s.setTurn a).inputs = s.inputs := rfl
@[simp] theorem setTurn_turn : (s.setTurn a).turn = a := rfl
@[simp] theorem setTurn_draws : (s.setTurn a).draws = s.draws := rfl
@[simp] theorem setTurn_host : (s.setTurn a).host = s.host := rfl
end setTurn_fields

section setDraws_fields
variable (n : Nat)
@[simp] theorem setDraws_platform : (s.setDraws n).platform = s.platform := rfl
@[simp] theorem setDraws_status : (s.setDraws n).status = s.status := rfl
@[simp] theorem setDraws_kv : (s.setDraws n).kv = s.kv := rfl
@[simp] theorem setDraws_addr : (s.setDraws n).addr = s.addr := rfl
@[simp] theorem setDraws_len : (s.setDraws n).len = s.len := rfl
@[simp] theorem setDraws_key : (s.setDraws n).key = s.key := rfl
@[simp] theorem setDraws_blk : (s.setDraws n).blk = s.blk := rfl
@[simp] theorem setDraws_rk : (s.setDraws n).rk = s.rk := rfl
@[simp] theorem setDraws_opl : (s.setDraws n).opl = s.opl := rfl
@[simp] theorem setDraws_ecl : (s.setDraws n).ecl = s.ecl := rfl
@[simp] theorem setDraws_addrl : (s.setDraws n).addrl = s.addrl := rfl
@[simp] theorem setDraws_nbl : (s.setDraws n).nbl = s.nbl := rfl
@[simp] theorem setDraws_workers : (s.setDraws n).workers = s.workers := rfl
@[simp] theorem setDraws_mem : (s.setDraws n).mem = s.mem := rfl
@[simp] theorem setDraws_inputs : (s.setDraws n).inputs = s.inputs := rfl
@[simp] theorem setDraws_turn : (s.setDraws n).turn = s.turn := rfl
@[simp] theorem setDraws_draws : (s.setDraws n).draws = n := rfl
@[simp] theorem setDraws_host : (s.setDraws n).host = s.host := rfl
end setDraws_fields

section setHost_fields
variable (h : HostState)
@[simp] theorem setHost_platform : (s.setHost h).platform = s.platform := rfl
@[simp] theorem setHost_status : (s.setHost h).status = s.status := rfl
@[simp] theorem setHost_kv : (s.setHost h).kv = s.kv := rfl
@[simp] theorem setHost_addr : (s.setHost h).addr = s.addr := rfl
@[simp] theorem setHost_len : (s.setHost h).len = s.len := rfl
@[simp] theorem setHost_key : (s.setHost h).key = s.key := rfl
@[simp] theorem setHost_blk : (s.setHost h).blk = s.blk := rfl
@[simp] theorem setHost_rk : (s.setHost h).rk = s.rk := rfl
@[simp] theorem setHost_opl : (s.setHost h).opl = s.opl := rfl
@[simp] theorem setHost_ecl : (s.setHost h).ecl = s.ecl := rfl
@[simp] theorem setHost_addrl : (s.setHost h).addrl = s.addrl := rfl
@[simp] theorem setHost_nbl : (s.setHost h).nbl = s.nbl := rfl
@[simp] theorem setHost_workers : (s.setHost h).workers = s.workers := rfl
@[simp] theorem setHost_mem : (s.setHost h).mem = s.mem := rfl
@[simp] theorem setHost_inputs : (s.setHost h).inputs = s.inputs := rfl
@[simp] theorem setHost_turn : (s.setHost h).turn = s.turn := rfl
@[simp] theorem setHost_draws : (s.setHost h).draws = s.draws := rfl
@[simp] theorem setHost_host : (s.setHost h).host = h := rfl
end setHost_fields

end Sys2Proof.Machine.State
end

