-- ==== Sys2Proof/Laws/Ops.lean ====
section
/-! SUPPORT. For each shared operation one lemma that says once everything it can do. -/

namespace Sys2Proof.Machine

/-! ### Opcodes -/

theorem opcodeIs_usesBuffer (op : Nibble) : opcodeIs usesBuffer op = true ↔ (op = 4 ∨ op = 5 ∨ op = 6) := by
  revert op; decide

theorem opcodeIs_usesBlockRegister (op : Nibble) : opcodeIs usesBlockRegister op = true ↔ (op = 2 ∨ op = 3) := by
  revert op; decide

theorem opcodeIs_readsSchedule (op : Nibble) :
    opcodeIs readsSchedule op = true ↔ (op = 2 ∨ op = 3 ∨ op = 4 ∨ op = 5 ∨ op = 6) := by
  revert op; decide

theorem opcodeIs_opcode (p : Instr → Bool) (i : Instr) : opcodeIs p i.opcode = p i := by
  simp [opcodeIs]

/-- R127: a range is admitted when MemOK holds at each of its addresses. -/
theorem rangeOK_iff (p : Platform) (lo hi : Nat) :
    rangeOK p lo hi = true ↔ ∀ a, lo ≤ a → a < hi → memOK p a = true := by
  simp only [rangeOK, memOK, List.all_eq_true, decide_eq_true_eq]
  constructor
  · intro h a h1 h2 x hx
    have := h x hx
    simp
    omega
  · intro h x hx
    by_contra hc
    have := h (max x.lo lo) (by omega) (by omega) x hx
    simp at this
    omega

/-! ### Acceptance -/

/-- R157: a word whose check finds no error spells a command whose conditions hold. -/
theorem check_none {v : Word} {s : State} (h : check v s = codeNone) :
    ∃ i, decode v = .command i ∧ (readsSchedule i = true → s.kv = true) ∧
      (usesBuffer i = true → s.len.toNat % 16 = 0 ∧ outOfRange s.platform s.addr s.len = false) := by
  unfold check at h
  split at h
  · exact absurd h (by decide)
  · next i hi =>
    refine ⟨i, hi, ?_⟩
    split at h
    · exact absurd h (by decide)
    · split at h
      · exact absurd h (by decide)
      · split at h
        · exact absurd h (by decide)
        · simp_all

/-- R150 to R153: no other code is produced. -/
theorem check_le (v : Word) (s : State) : check v s ≤ 4 := by
  unfold check
  split
  · decide
  · split
    · decide
    · split
      · decide
      · split <;> decide

/-- R142: what acceptance leaves alone, and the status it sets. -/
theorem accept_frame (v : Word) (s : State) :
    (accept v s).platform = s.platform ∧ (accept v s).kv = s.kv ∧ (accept v s).addr = s.addr ∧
    (accept v s).len = s.len ∧ (accept v s).key = s.key ∧ (accept v s).blk = s.blk ∧
    (accept v s).rk = s.rk ∧ (accept v s).mem = s.mem ∧ (accept v s).inputs = s.inputs ∧
    (accept v s).turn = s.turn ∧ (accept v s).draws = s.draws ∧ (accept v s).host = s.host ∧
    (accept v s).status = Status.accepted ∧ (accept v s).opl = (CmdWord.ofWord v).op ∧
    (accept v s).ecl = check v s := by
  unfold accept; simp only; split <;> simp

/-- R142: the latches and ranges of a buffer command that passes its checks. -/
theorem accept_buffer {v : Word} {s : State} (h : check v s = codeNone)
    (hb : opcodeIs usesBuffer (CmdWord.ofWord v).op = true) :
    accept v s = (s.setStatus Status.accepted).setLatches (CmdWord.ofWord v).op codeNone s.addr
      (blockCount s.len) (assignRanges (CmdWord.ofWord v).op s.platform (blockCount s.len)) := by
  simp [accept, h, hb]

/-- R142: the latches of every other acceptance: no block, no range. -/
theorem accept_other {v : Word} {s : State}
    (h : ¬(check v s = codeNone ∧ opcodeIs usesBuffer (CmdWord.ofWord v).op = true)) :
    accept v s = (s.setStatus Status.accepted).setLatches (CmdWord.ofWord v).op (check v s) 0 0
      (noRanges s.platform) := by
  simp [accept, h]

theorem writeCmd_idle {v : Word} {s : State} (h : s.status.busy = false) : writeCmd v s = accept v s := by
  simp [writeCmd, h]

theorem writeCmd_busy {v : Word} {s : State} (h : s.status.busy = true) : writeCmd v s = ignoreWrite s := by
  simp [writeCmd, h]

@[simp] theorem noRanges_length (p : Platform) : (noRanges p).length = p.numWorkers := by simp [noRanges]
@[simp] theorem sequentialRanges_length (p : Platform) (n : BlockIndex) :
    (sequentialRanges p n).length = p.numWorkers := by simp [sequentialRanges]
@[simp] theorem parallelRanges_length (p : Platform) (n : BlockIndex) :
    (parallelRanges p n).length = p.numWorkers := by simp [parallelRanges]

theorem assignRanges_length (op : Nibble) (p : Platform) (n : BlockIndex) :
    (assignRanges op p n).length = p.numWorkers := by
  unfold assignRanges; split <;> simp

/-! ### Completion -/

/-- R143: completion of a command that passed its checks. -/
theorem complete_ok {work : State → State} {s : State} (h : s.ecl = codeNone) :
    complete work s = (work s).setStatus (work s).status.completed := by simp [complete, h]

/-- R155: completion of a command that did not: the work is not done. -/
theorem complete_error {work : State → State} {s : State} (h : s.ecl ≠ codeNone) :
    complete work s = raiseCmdError s := by simp [complete, h]

/-- R143: everything the controller's step can do. -/
theorem controllerStep_cases (i : Instr) (work : State → State) (s : State) :
    (inProgress i s = true ∧ controllerEnabled s = true ∧ controllerStep i work s = complete work s) ∨
    controllerStep i work s = s := by
  unfold controllerStep
  split
  · next h => simp at h; exact .inl ⟨h.1, h.2, rfl⟩
  · exact .inr rfl

/-- R143: when the controller has a step. -/
theorem controllerEnabled_iff (s : State) : controllerEnabled s = true ↔
    (s.status.busy = true ∧ (s.ecl ≠ codeNone ∨ opcodeIs usesBuffer s.opl = false ∨ ∀ k ∈ s.workers, k.nx = k.hi)) := by
  simp [controllerEnabled, joined, or_assoc]

theorem controllerEnabled_busy {s : State} (h : controllerEnabled s = true) : s.status.busy = true :=
  ((controllerEnabled_iff s).1 h).1

/-! ### Worker steps -/

/-- R133: what a worker that has a step is. -/
theorem workerReady_some {i : Instr} {w : Nat} {s : State} {k : Worker} (h : workerReady i w s = some k) :
    inProgress i s = true ∧ usesBuffer i = true ∧ s.ecl = codeNone ∧ s.workers[w]? = some k ∧ k.nx < k.hi := by
  unfold workerReady at h
  split at h
  · next hc =>
    simp only [Bool.and_eq_true, beq_iff_eq] at hc
    obtain ⟨hk, hlt⟩ := Option.filter_eq_some_iff.1 h
    exact ⟨hc.1.1, hc.1.2, hc.2, hk, by simpa using hlt⟩
  · cases h

/-- R133: exactly when a worker has a step. -/
theorem workerReady_iff {i : Instr} {w : Nat} {s : State} {k : Worker} : workerReady i w s = some k ↔
    (s.status.busy = true ∧ s.opl = i.opcode) ∧ usesBuffer i = true ∧ s.ecl = codeNone ∧
      s.workers[w]? = some k ∧ k.nx < k.hi := by
  constructor
  · intro h
    obtain ⟨h1, h2⟩ := workerReady_some h
    exact ⟨by simpa [inProgress] using h1, h2⟩
  · rintro ⟨⟨h1, h2⟩, h3, h4, h5, h6⟩
    simp [workerReady, inProgress, h1, h2, h3, h4, h5, Option.filter, h6]

/-- R133, R134: everything a worker's step can do. -/
theorem workerStep_cases (i : Instr) (f : Schedule → Block → Block) (w : Nat) (s : State) :
    (∃ k, workerReady i w s = some k ∧ blockAddress s.addrl k.nx + 16 ≤ memorySize s.platform ∧
      workerStep i f w s = .next ((s.setMem (writeBlock s.mem (blockAddress s.addrl k.nx)
        (f s.rk (readBlock s.mem (blockAddress s.addrl k.nx))))).setWorkers
          (s.workers.set w { k with nx := k.nx + 1 }))) ∨
    (∃ k, workerReady i w s = some k ∧ memorySize s.platform < blockAddress s.addrl k.nx + 16 ∧
      workerStep i f w s =
        .fault (.noSuchAddress (max (blockAddress s.addrl k.nx) (memorySize s.platform)))) ∨
    (workerReady i w s = none ∧ workerStep i f w s = .next s) := by
  unfold workerStep
  cases hk : workerReady i w s with
  | none => exact .inr (.inr ⟨rfl, rfl⟩)
  | some k =>
    by_cases ha : blockAddress s.addrl k.nx + 16 ≤ memorySize s.platform
    · exact .inl ⟨k, rfl, ha, by simp [blockStep, ha]⟩
    · exact .inr (.inl ⟨k, rfl, by omega, by simp [blockStep, ha]⟩)

/-! ### A command's step -/

/-- The host's step of any command is its write to CMD (R24, R142, R34). -/
theorem exec_host {s : State} (h : s.turn = .host) (i : Instr) : exec i s = .next (writeCmd (encode i) s) := by
  cases i <;>
    simp [exec, execNop, execKeyexp, execEncb, execDecb, execEcbe, execEcbep, execEcbd, execZeroize, command,
      bufferCommand, h]

/-- R143: the work of a command in its completion step; the ECB commands have none. -/
def workOf : Instr → State → State
  | .nop => nopWork
  | .keyexp => keyexpWork
  | .encb => encbWork
  | .decb => decbWork
  | .zeroize => zeroizeWork
  | .ecbe | .ecbep | .ecbd => fun s => s

/-- The controller's step of any command (R143). -/
theorem exec_controller {s : State} (h : s.turn = .controller) (i : Instr) :
    exec i s = .next (controllerStep i (workOf i) s) := by
  cases i <;>
    simp [exec, execNop, execKeyexp, execEncb, execDecb, execEcbe, execEcbep, execEcbd, execZeroize, command,
      bufferCommand, workOf, h]

/-- R125: the block function of a command. -/
def blockFunctionOf : Instr → Schedule → Block → Block
  | .ecbd => decryptBlock
  | .nop | .keyexp | .encb | .decb | .zeroize | .ecbe | .ecbep => encryptBlock

/-- A worker's step of any command (R133, R134). -/
theorem exec_worker {s : State} {w : Nat} (h : s.turn = .worker w) (i : Instr) :
    exec i s = workerStep i (blockFunctionOf i) w s := by
  cases i <;>
    simp [exec, execNop, execKeyexp, execEncb, execDecb, execEcbe, execEcbep, execEcbd, execZeroize, command,
      bufferCommand, blockFunctionOf, workerStep, workerReady, usesBuffer, h]

/-- R143: what a command's work leaves alone: STATUS, the latches, the operand registers of the host, data memory. -/
theorem workOf_frame (i : Instr) (s : State) :
    (workOf i s).platform = s.platform ∧ (workOf i s).status = s.status ∧ (workOf i s).addr = s.addr ∧
    (workOf i s).len = s.len ∧ (workOf i s).opl = s.opl ∧ (workOf i s).ecl = s.ecl ∧
    (workOf i s).addrl = s.addrl ∧ (workOf i s).nbl = s.nbl ∧ (workOf i s).workers = s.workers ∧
    (workOf i s).mem = s.mem ∧ (workOf i s).inputs = s.inputs ∧ (workOf i s).turn = s.turn ∧
    (workOf i s).draws = s.draws ∧ (workOf i s).host = s.host := by
  cases i <;> simp [workOf, nopWork, keyexpWork, encbWork, decbWork, zeroizeWork]

/-- R143: everything the completion of the command in progress leaves alone, and the status it sets. -/
theorem complete_fields {work : State → State} {s : State} (hw : ∀ u, work u = u ∨ ∃ i, work u = workOf i u) :
    (complete work s).platform = s.platform ∧ (complete work s).addr = s.addr ∧ (complete work s).len = s.len ∧
    (complete work s).opl = s.opl ∧ (complete work s).ecl = s.ecl ∧ (complete work s).addrl = s.addrl ∧
    (complete work s).nbl = s.nbl ∧ (complete work s).workers = s.workers ∧ (complete work s).mem = s.mem ∧
    (complete work s).status = if s.ecl = codeNone then s.status.completed else s.status.failed s.ecl := by
  by_cases h : s.ecl = codeNone
  · rw [complete_ok h, if_pos h]
    rcases hw s with hi | ⟨i, hi⟩ <;> rw [hi] <;> simp [workOf_frame]
  · rw [complete_error h, if_neg h]; simp [raiseCmdError]

/-- R143: the completion of a command in progress that passed its checks and whose workers have joined. -/
theorem exec_completes {s : State} {i : Instr} (ht : s.turn = .controller) (hb : s.status.busy = true)
    (ho : s.opl = i.opcode) (he : s.ecl = codeNone) (hj : usesBuffer i = false ∨ ∀ k ∈ s.workers, k.nx = k.hi) :
    exec i s = .next ((workOf i s).setStatus (workOf i s).status.completed) := by
  have hc : controllerEnabled s = true := by
    rw [controllerEnabled_iff, ho, opcodeIs_opcode]
    exact ⟨hb, .inr hj⟩
  rw [exec_controller ht]
  simp [controllerStep, inProgress, hb, ho, hc, complete_ok he]

end Sys2Proof.Machine
end

