-- ==== Sys2Proof/Laws/Bus.lean ====
section
/-! SUPPORT. Inversion of the host's accesses and of a step: what they can do when they answer a next state. -/

namespace Sys2Proof.Machine

theorem mapNext_next {α β : Type} {o : Host.Outcome α Fault Refusal} {f : α → β} {b : β}
    (h : mapNext o f = .next b) : ∃ a, o = .next a ∧ b = f a := by
  cases o <;> simp_all [mapNext]

/-- R22: an access that answers touches the window, is 32 bits wide and aligned. -/
theorem atWindow_next {α : Type} {p : Platform} {addr width : Nat} {k : Nat → Host.Outcome α Fault Refusal}
    {a : α} (h : atWindow p addr width k = .next a) :
    touchesWindow p addr width = true ∧ width = 32 ∧ addr % 4 = 0 ∧ k (addr - p.base) = .next a := by
  unfold atWindow at h
  split at h
  · cases h
  · split at h
    · cases h
    · simp_all

/-- R42, R177: an access that answers is to a byte that exists and is in no buffer in use. -/
theorem atMemory_next {α : Type} {a : Nat} {s : State} {k : Host.Outcome α Fault Refusal} {x : α}
    (h : atMemory a s k = .next x) : a < memorySize s.platform ∧ inBuffer s a = false ∧ k = .next x := by
  unfold atMemory at h
  split at h
  · cases h
  · split at h
    · cases h
    · simp_all

/-- R21: the register at a register's own offset. -/
@[simp] theorem atOffset_offset (r : Reg) : Reg.atOffset r.offset = some r := by
  cases r with
  | key j => fin_cases j <;> rfl
  | blk j => fin_cases j <;> rfl
  | _ => rfl

/-! ### The parameters of a build -/

theorem platform_wf_base {p : Platform} (h : p.wf = true) : p.base % 256 = 0 := by
  simp [Platform.wf, Platform.baseOk] at h; omega

theorem platform_wf_workers {p : Platform} (h : p.wf = true) : 1 ≤ p.numWorkers ∧ p.numWorkers ≤ 255 := by
  simp [Platform.wf, Platform.workersOk] at h; omega

theorem platform_wf_width {p : Platform} (h : p.wf = true) : 1 ≤ p.addrWidth ∧ p.addrWidth ≤ 32 := by
  simp [Platform.wf, Platform.widthOk] at h; omega

/-! ### Accesses at the window's offsets -/

theorem Reg.offset_lt (r : Reg) : r.offset < 256 ∧ r.offset % 4 = 0 := by
  cases r <;> simp [Reg.offset] <;> omega

/-- R22: an aligned 32-bit access within the window is at its offset. -/
theorem atWindow_offset {α : Type} {p : Platform} (h : p.wf = true) {o : Nat} (ho : o < 256) (h4 : o % 4 = 0)
    (k : Nat → Host.Outcome α Fault Refusal) : atWindow p (p.base + o) 32 k = k o := by
  have := platform_wf_base h
  unfold atWindow touchesWindow
  rw [if_neg, if_neg]
  · congr 1; omega
  · omega
  · simp; omega

theorem busRead_offset {s : State} (h : s.platform.wf = true) {o : Nat} (ho : o < 256) (h4 : o % 4 = 0) :
    busRead (s.platform.base + o) 32 s = .next (readWindow (Reg.atOffset o) s) := by
  rw [busRead, atWindow_offset h ho h4]

theorem busWrite_offset {s : State} (h : s.platform.wf = true) {o : Nat} (ho : o < 256) (h4 : o % 4 = 0)
    (v : Word) : busWrite (s.platform.base + o) 32 v s = writeWindow o v s := by
  rw [busWrite, atWindow_offset h ho h4]

theorem busRead_reg {s : State} (h : s.platform.wf = true) (r : Reg) :
    busRead (s.platform.base + r.offset) 32 s = .next (readReg r s) := by
  rw [busRead_offset h (Reg.offset_lt r).1 (Reg.offset_lt r).2]; simp [readWindow]

theorem busWrite_reg {s : State} (h : s.platform.wf = true) (r : Reg) (v : Word) :
    busWrite (s.platform.base + r.offset) 32 v s = writeReg r v s := by
  rw [busWrite_offset h (Reg.offset_lt r).1 (Reg.offset_lt r).2]; simp [writeWindow]

/-- R23: the reserved offsets of the window. -/
theorem atOffset_reserved {o : Nat} (h : o = 0x14 ∨ o = 0x18 ∨ o = 0x1C ∨ 0x40 ≤ o) : Reg.atOffset o = none := by
  rcases h with rfl | rfl | rfl | h
  · rfl
  · rfl
  · rfl
  · unfold Reg.atOffset; split <;> first | rfl | omega

/-- R21 to R34: everything a write to a register can do. -/
theorem writeReg_cases (r : Reg) (v : Word) (s : State) :
    (r = .cmd ∧ writeReg r v s = writeCommandReg v s) ∨
    ((r = .status ∨ r = .config) ∧ writeReg r v s = .next s) ∨
    (s.status.busy = true ∧ writeReg r v s = .next (ignoreWrite s)) ∨
    (s.status.busy = false ∧ writeReg r v s = .next (storeReg r v s)) := by
  cases hb : s.status.busy <;> cases r <;> simp [writeReg, writeOperandReg, hb]

/-- The host's write to CMD, whatever the word (R24, R34, R71). -/
theorem writeCommandReg_host {v : Word} {s : State} (h : s.turn = .host) :
    writeCommandReg v s = .next (writeCmd v s) := by
  unfold writeCommandReg
  split
  · next i hi =>
    obtain ⟨h0, h1⟩ := fields_of_decode hi
    have he : encode i = v := by
      have h2 : CmdWord.ofWord (encode i) = CmdWord.ofWord v := by
        rw [ofWord_encode, opcode_of_ofOpcode h1, ← h0]
      rw [← toWord_ofWord (encode i), h2, toWord_ofWord]
    rw [exec_host h, he]
  · rfl

/-- A step takes the first event of the input list, or the default one, or does nothing. -/
theorem step_cases (s : State) :
    (∃ e es, s.inputs = e :: es ∧ step s = runEvent e (s.setInputs es)) ∨
    (∃ e, s.inputs = [] ∧ defaultEvent s = some e ∧ step s = runEvent e s) ∨
    (s.inputs = [] ∧ defaultEvent s = none ∧ step s = .next s) := by
  unfold step advanceMachine
  cases hi : s.inputs with
  | cons e es => exact .inl ⟨e, es, rfl, rfl⟩
  | nil =>
    cases hd : defaultEvent s with
    | some e => exact .inr (.inl ⟨e, rfl, rfl, rfl⟩)
    | none => exact .inr (.inr ⟨rfl, rfl, rfl⟩)

theorem step_input {s : State} {e : Event} {es : List Event} (h : s.inputs = e :: es) :
    step s = runEvent e (s.setInputs es) := by simp [step, advanceMachine, h]

end Sys2Proof.Machine
end

