-- ==== Sys2Proof/Laws/HostProgram.lean ====
section
/-! SUPPORT. The laws of the host's variables (log entry 11): reading back what was set. -/

namespace Sys2Proof.Machine

theorem varGet_above {α : Type} {d : α} {x : Nat} : ∀ {l : List (Nat × α)}, (∀ c ∈ l, x < c.1) → varGet d l x = d
  | [], _ => rfl
  | (k, v) :: l, h => by
    have h1 := h (k, v) (by simp)
    rw [varGet, if_neg (by simp at h1; omega)]
    exact varGet_above fun c hc => h c (by simp [hc])

theorem varGet_entry {α : Type} [DecidableEq α] {d : α} {x : Nat} {v : α} {l : List (Nat × α)}
    (h : ∀ c ∈ l, x < c.1) : varGet d (varEntry d x v ++ l) x = v := by
  unfold varEntry; split
  · next hv => subst hv; exact varGet_above h
  · simp [varGet]

/-- A sorted list of variables reads back what it was set to. -/
theorem varGet_varSet {α : Type} [DecidableEq α] {d : α} {x : Nat} {v : α} :
    ∀ {l : List (Nat × α)}, l.Pairwise (fun c e => c.1 < e.1) → varGet d (varSet d l x v) x = v
  | [], _ => by
    have := varGet_entry (d := d) (x := x) (v := v) (l := []) (by simp); simpa [varSet] using this
  | (k, w) :: l, h => by
    rw [List.pairwise_cons] at h
    unfold varSet
    split
    · apply varGet_entry
      intro c hc
      rcases List.mem_cons.1 hc with rfl | hc
      · assumption
      · have := h.1 c hc; simp at this; omega
    · split
      · next h1 h2 => subst h2; exact varGet_entry h.1
      · next h1 h2 => rw [varGet, if_neg h2]; exact varGet_varSet h.2

end Sys2Proof.Machine
end

