-- ==== Sys2Proof/Laws/Moves.lean ====
section
/-! SUPPORT. The inversion of a step: everything a step that answers a next state can have done to the core and to data
memory. Invariants are proved by the cases of `Move`, not by unfolding `step`. -/

namespace Sys2Proof.Machine

/-- t agrees with u in everything but the model's own fields: the events to come, the turn, the draw counter and the host. -/
def CoreEq (u t : State) : Prop :=
  t = { u with inputs := t.inputs, turn := t.turn, draws := t.draws, host := t.host }

theorem CoreEq.refl (u : State) : CoreEq u u := rfl

theorem CoreEq.fields {u t : State} (h : CoreEq u t) :
    t.platform = u.platform ∧ t.status = u.status ∧ t.kv = u.kv ∧ t.addr = u.addr ∧ t.len = u.len ∧
    t.key = u.key ∧ t.blk = u.blk ∧ t.rk = u.rk ∧ t.opl = u.opl ∧ t.ecl = u.ecl ∧ t.addrl = u.addrl ∧
    t.nbl = u.nbl ∧ t.workers = u.workers ∧ t.mem = u.mem := by
  unfold CoreEq at h; rw [h]; simp

/-- What a step did: nothing to the core, a host write to CMD, to an operand register or to data memory, the controller's
completion, or a worker's block step. -/
inductive Move (s t : State) : Prop
  | quiet (h : CoreEq s t)
  | command (v : Word) (h : CoreEq (writeCmd v s) t)
  | operand (r : Reg) (v : Word) (h : CoreEq (writeOperandReg r v s) t) (hr : r ≠ .cmd ∧ r ≠ .status ∧ r ≠ .config)
  | memory (a : Nat) (b : Byte) (h : CoreEq (s.setMem (memWrite s.mem a b)) t)
      (ha : a < memorySize s.platform) (hb : inBuffer s a = false)
  | completed (work : State → State) (h : CoreEq (complete work s) t) (he : controllerEnabled s = true)
      (hw : (∃ i, Instr.ofOpcode s.opl = some i ∧ ∀ u, work u = workOf i u) ∨
        (Instr.ofOpcode s.opl = none ∧ ∀ u, work u = u)) (ht : t.turn = .controller)
  | block (i : Instr) (w : Nat) (k : Worker) (hk : workerReady i w s = some k)
      (ha : blockAddress s.addrl k.nx + 16 ≤ memorySize s.platform)
      (h : CoreEq ((s.setMem (writeBlock s.mem (blockAddress s.addrl k.nx)
        (blockFunctionOf i s.rk (readBlock s.mem (blockAddress s.addrl k.nx))))).setWorkers
          (s.workers.set w { k with nx := k.nx + 1 })) t) (ht : t.turn = .worker w)

/-- A move that leaves the host's own fields aside. -/
theorem Move.then_host {s t : State} (h : Move s t) (x : HostState) : Move s (t.setHost x) := by
  cases h with
  | quiet h => exact .quiet (by unfold CoreEq at *; rw [h]; rfl)
  | command v h => exact .command v (by unfold CoreEq at *; rw [h]; rfl)
  | operand r v h hr => exact .operand r v (by unfold CoreEq at *; rw [h]; rfl) hr
  | memory a b h ha hb => exact .memory a b (by unfold CoreEq at *; rw [h]; rfl) ha hb
  | completed w h he hw ht => exact .completed w (by unfold CoreEq at *; rw [h]; rfl) he hw ht
  | block i w k hk ha h ht => exact .block i w k hk ha (by unfold CoreEq at *; rw [h]; rfl) ht

/-- The host's write to the window. -/
theorem busWrite_move {a w : Nat} {v : Word} {s t : State} (hs : s.turn = .host)
    (h : busWrite a w v s = .next t) : Move s t := by
  obtain ⟨_, _, _, h⟩ := atWindow_next h
  unfold writeWindow at h
  split at h
  · next r hr =>
    cases r <;> simp only [writeReg, writeCommandReg_host hs, Host.Outcome.next.injEq] at h <;> subst h
    · exact .command v rfl
    · exact .quiet rfl
    · exact .quiet rfl
    · exact .operand .addr v rfl (by simp)
    · exact .operand .len v rfl (by simp)
    · exact .operand _ v rfl (by simp)
    · exact .operand _ v rfl (by simp)
  · cases h; exact .quiet rfl

theorem readWindow_quiet (r : Option Reg) (s : State) : CoreEq s (readWindow r s).2 := by
  unfold readWindow readReg
  split
  · split <;> try exact rfl
    split <;> exact rfl
  · exact rfl

theorem busRead_quiet {a w : Nat} {s : State} {x : Word × State} (h : busRead a w s = .next x) :
    CoreEq s x.2 := by
  obtain ⟨_, _, _, h⟩ := atWindow_next h
  cases h
  exact readWindow_quiet _ s

theorem hostMemWrite_move {a : Nat} {b : Byte} {s t : State} (h : hostMemWrite a b s = .next t) : Move s t := by
  obtain ⟨ha, hb, h⟩ := atMemory_next h
  cases h
  exact .memory a b rfl ha hb

theorem setHost_quiet {s t : State} (h : CoreEq s t) (x : HostState) : Move s (t.setHost x) :=
  .quiet (by unfold CoreEq at *; rw [h]; rfl)

/-- The host's next program action. -/
theorem programStep_move {s t : State} (hs : s.turn = .host)
    (h : programStep s = .next t) : Move s t := by
  unfold programStep at h
  split at h
  · next line _ =>
    cases hop : line.op with
    | wr r v =>
      rw [hop] at h
      obtain ⟨u, hu, rfl⟩ := mapNext_next h
      exact (busWrite_move hs hu).then_host _
    | rd r x =>
      rw [hop] at h
      obtain ⟨u, hu, rfl⟩ := mapNext_next h
      exact setHost_quiet (busRead_quiet hu) _
    | mwr a bs =>
      rw [hop] at h
      simp only [hostOpStep, hostMwr] at h
      split at h
      · obtain ⟨u, hu, rfl⟩ := mapNext_next h
        exact (hostMemWrite_move hu).then_host _
      · cases h; exact setHost_quiet (CoreEq.refl s) _
    | mrd a n y =>
      rw [hop] at h
      simp only [hostOpStep, hostMrd] at h
      split at h
      · obtain ⟨u, hu, rfl⟩ := mapNext_next h
        exact setHost_quiet (CoreEq.refl s) _
      · cases h; exact setHost_quiet (CoreEq.refl s) _
    | bnz x bit l =>
      rw [hop] at h
      simp only [hostOpStep, hostBnz] at h
      split at h
      · split at h
        · cases h; exact setHost_quiet (CoreEq.refl s) _
        · cases h
      · cases h; exact setHost_quiet (CoreEq.refl s) _
  · cases h; exact .quiet rfl

theorem controllerEvent_move {s t : State} (hs : s.turn = .controller) (h : controllerEvent s = .next t) :
    Move s t := by
  unfold controllerEvent at h
  split at h
  · next i hi =>
    rw [exec_controller hs] at h
    cases h
    rcases controllerStep_cases i (workOf i) s with ⟨_, he, heq⟩ | heq
    · rw [heq]
      refine .completed (workOf i) rfl he (.inl ⟨i, hi, fun _ => rfl⟩) ?_
      unfold complete
      split
      · exact hs
      · exact (workOf_frame i s).2.2.2.2.2.2.2.2.2.2.2.1.trans hs
    · rw [heq]; exact .quiet rfl
  · next hi =>
    cases h
    split
    · next he =>
      refine .completed (fun s => s) rfl he (.inr ⟨hi, fun _ => rfl⟩) ?_
      unfold complete
      split <;> exact hs
    · exact .quiet rfl

theorem workerEvent_move {s t : State} {w : Nat} (hs : s.turn = .worker w) (h : workerEvent s = .next t) :
    Move s t := by
  unfold workerEvent at h
  split at h
  · next i hi =>
    rw [exec_worker hs] at h
    rcases workerStep_cases i (blockFunctionOf i) w s with ⟨k, hk, ha, he⟩ | ⟨k, _, _, he⟩ | ⟨_, he⟩
    · rw [he] at h; cases h; exact .block i w k hk ha rfl hs
    · rw [he] at h; cases h
    · rw [he] at h; cases h; exact .quiet rfl
  · cases h; exact .quiet rfl

/-- One event but a reset. -/
theorem eventStep_move {e : Event} {s t : State} (hs : s.turn = e.agent) (he : e ≠ .reset)
    (h : eventStep e s = .next t) : Move s t := by
  cases e with
  | busWrite a w v => exact busWrite_move hs h
  | busRead a w x =>
    obtain ⟨u, hu, rfl⟩ := mapNext_next h
    exact setHost_quiet (busRead_quiet hu) _
  | memWrite a b => exact hostMemWrite_move h
  | memRead a y =>
    obtain ⟨u, _, rfl⟩ := mapNext_next h
    exact setHost_quiet (CoreEq.refl s) _
  | program => exact programStep_move hs h
  | controller => exact controllerEvent_move hs h
  | worker w => exact workerEvent_move hs h
  | reset => exact absurd rfl he

/-- The state with other events to come and another turn. -/
abbrev State.atTurn (s : State) (es : List Event) (a : Agent) : State := (s.setInputs es).setTurn a

theorem CoreEq.of_atTurn {u t : State} {es : List Event} {a : Agent} (h : CoreEq (u.atTurn es a) t) : CoreEq u t := by
  unfold CoreEq at *; rw [h]; rfl

theorem writeCmd_atTurn (v : Word) (s : State) (es : List Event) (a : Agent) :
    writeCmd v (s.atTurn es a) = (writeCmd v s).atTurn es a := by
  have hc : check v (s.atTurn es a) = check v s := rfl
  have hb : (s.atTurn es a).status = s.status := rfl
  have hp : (s.atTurn es a).platform = s.platform := rfl
  unfold writeCmd accept
  rw [hb, hc, hp]
  by_cases h : s.status.busy = true
  · rw [if_pos h, if_pos h]; rfl
  · rw [if_neg h, if_neg h]
    by_cases h2 : check v s = codeNone ∧ opcodeIs usesBuffer (CmdWord.ofWord v).op = true
    · rw [if_pos h2, if_pos h2]; rfl
    · rw [if_neg h2, if_neg h2]; rfl

theorem writeOperandReg_atTurn (r : Reg) (v : Word) (s : State) (es : List Event) (a : Agent) :
    writeOperandReg r v (s.atTurn es a) = (writeOperandReg r v s).atTurn es a := by
  have hb : (s.atTurn es a).status = s.status := rfl
  unfold writeOperandReg
  rw [hb]
  by_cases h : s.status.busy = true
  · rw [if_pos h, if_pos h]; rfl
  · rw [if_neg h, if_neg h]; cases r <;> rfl

theorem workOf_atTurn (i : Instr) (s : State) (es : List Event) (a : Agent) :
    workOf i (s.atTurn es a) = (workOf i s).atTurn es a := by cases i <;> rfl

theorem complete_atTurn {work : State → State} {s : State} {es : List Event} {a : Agent}
    (hw : work (s.atTurn es a) = (work s).atTurn es a) :
    complete work (s.atTurn es a) = (complete work s).atTurn es a := by
  by_cases h : s.ecl = codeNone
  · rw [complete_ok h, complete_ok (s := s.atTurn es a) h, hw]; rfl
  · rw [complete_error h, complete_error (s := s.atTurn es a) h]; rfl

/-- The events to come and the turn are not the core's: a move from a state that differs in them is a move. -/
theorem Move.of_atTurn {s t : State} {es : List Event} {a : Agent} (h : Move (s.atTurn es a) t) : Move s t := by
  cases h with
  | quiet h => exact .quiet h.of_atTurn
  | command v h => rw [writeCmd_atTurn] at h; exact .command v h.of_atTurn
  | operand r v h hr => rw [writeOperandReg_atTurn] at h; exact .operand r v h.of_atTurn hr
  | memory x b h ha hb =>
    exact .memory x b (CoreEq.of_atTurn (u := s.setMem (memWrite s.mem x b)) (es := es) (a := a) h) ha hb
  | completed w h he hw ht =>
    refine .completed w ?_ he hw ht
    rw [complete_atTurn] at h
    · exact h.of_atTurn
    · rcases hw with ⟨i, _, hi⟩ | ⟨_, hi⟩
      · rw [hi, hi, workOf_atTurn]
      · rw [hi, hi]
  | block i w k hk ha h ht => exact .block i w k hk ha (by unfold CoreEq at *; rw [h]; rfl) ht

/-- The default event is never a reset. -/
theorem defaultEvent_ne_reset {s : State} {e : Event} (h : defaultEvent s = some e) : e ≠ .reset := by
  unfold defaultEvent at h
  split at h
  · cases h; simp
  · split at h
    · cases h; simp
    · split at h
      · cases h; simp
      · cases h

theorem runEvent_move {e : Event} {s t : State} (he : e ≠ .reset) (h : runEvent e s = .next t) : Move s t :=
  Move.of_atTurn (es := s.inputs) (a := e.agent) (eventStep_move (s := s.setTurn e.agent) rfl he h)

/-- Everything a step can do: a move, or, where the next event is the reset input, the reset. -/
theorem step_move {s t : State} (h : step s = .next t) :
    Move s t ∨ ∃ es, s.inputs = .reset :: es ∧ t = resetStep (s.atTurn es .host) := by
  rcases step_cases s with ⟨e, es, hi, hs⟩ | ⟨e, hi, hd, hs⟩ | ⟨hi, hd, hs⟩
  · rw [hs] at h
    by_cases he : e = .reset
    · subst he; cases h; exact .inr ⟨es, hi, rfl⟩
    · exact .inl (eventStep_move (s := s.atTurn es e.agent) rfl he h).of_atTurn
  · rw [hs] at h; exact .inl (runEvent_move (defaultEvent_ne_reset hd) h)
  · rw [hs] at h; cases h; exact .inl (.quiet rfl)

end Sys2Proof.Machine
end

