-- ==== Sys2Proof/Laws/PerInstr.lean ====
section
/-! SUPPORT. Families of statements about the commands as syntax, one lemma per constructor (LAWS.json). -/

namespace Sys2Proof.Laws.TableWord

/-- R70, R72: a command's word has RSV = 0, its opcode in OP, and decodes to the command. -/
def Statement (i : Instr) : Prop :=
  encode i = i.opcode.setWidth 32 ∧ CmdWord.wf (CmdWord.ofWord (encode i)) = true ∧
    decode (encode i) = .command i

theorem nop : Statement .nop := by unfold Statement; decide
theorem keyexp : Statement .keyexp := by unfold Statement; decide
theorem encb : Statement .encb := by unfold Statement; decide
theorem decb : Statement .decb := by unfold Statement; decide
theorem ecbe : Statement .ecbe := by unfold Statement; decide
theorem ecbep : Statement .ecbep := by unfold Statement; decide
theorem ecbd : Statement .ecbd := by unfold Statement; decide
theorem zeroize : Statement .zeroize := by unfold Statement; decide

end Sys2Proof.Laws.TableWord
end

