-- ==== Sys2Proof/Laws/Ranges.lean ====
section
/-! SUPPORT. The laws of the workers' ranges (43_ecb_mode.md R130, R131, R133): what the two assignments are, entry by
entry, and what a block step does to a range. -/

namespace Sys2Proof.Machine

open Sys2Proof.Safety

/-- A value at most n is a block index. -/
theorem toNat_ofNat_min (n : BlockIndex) (x : Nat) : (BitVec.ofNat 28 (min n.toNat x)).toNat = min n.toNat x := by
  have := n.isLt
  rw [BitVec.toNat_ofNat, Nat.mod_eq_of_lt (by omega)]

/-- R129: the number of blocks of a buffer. -/
theorem blockCount_toNat (len : Word) : (blockCount len).toNat = len.toNat / 16 := by
  have := len.isLt
  unfold blockCount
  rw [BitVec.toNat_ofNat, Nat.mod_eq_of_lt (by omega)]

/-- R131: P chunks hold n blocks. -/
theorem le_mul_chunk {n p : Nat} (hp : 1 ≤ p) : n ≤ p * ((n + p - 1) / p) := by
  have h1 := Nat.div_add_mod (n + p - 1) p
  have h2 := Nat.mod_lt (n + p - 1) (show 0 < p by omega)
  omega

theorem sequentialRanges_get {p : Platform} {n : BlockIndex} {w : Nat} {k : Worker}
    (h : (sequentialRanges p n)[w]? = some k) :
    w < p.numWorkers ∧ k = if w = 0 then { lo := 0, hi := n, nx := 0 } else Worker.idle := by
  simp only [sequentialRanges, List.getElem?_map, Option.map_eq_some_iff, List.getElem?_eq_some_iff] at h
  obtain ⟨a, ⟨h1, h2⟩, h3⟩ := h
  simp at h1 h2; subst h2; exact ⟨h1, h3.symm⟩

theorem parallelRanges_get {p : Platform} {n : BlockIndex} {w : Nat} {k : Worker}
    (h : (parallelRanges p n)[w]? = some k) : w < p.numWorkers ∧ k = parallelRange p n w := by
  simp only [parallelRanges, List.getElem?_map, Option.map_eq_some_iff, List.getElem?_eq_some_iff] at h
  obtain ⟨a, ⟨h1, h2⟩, h3⟩ := h
  simp at h1 h2; subst h2; exact ⟨h1, h3.symm⟩

/-- R131: the numbers of a parallel range. -/
theorem parallelRange_toNat (p : Platform) (n : BlockIndex) (w : Nat) :
    (parallelRange p n w).lo.toNat = min n.toNat (w * chunkSize p n) ∧
    (parallelRange p n w).hi.toNat = min n.toNat ((w + 1) * chunkSize p n) ∧
    (parallelRange p n w).nx = (parallelRange p n w).lo := by
  exact ⟨toNat_ofNat_min n _, toNat_ofNat_min n _, rfl⟩

/-- R134: a worker with a block left advances without wrapping. -/
theorem nx_succ_toNat {k : Worker} (h : k.nx < k.hi) : (k.nx + 1).toNat = k.nx.toNat + 1 := by
  have := k.hi.isLt
  have h' : k.nx.toNat < k.hi.toNat := h
  rw [BitVec.toNat_add]; simp; omega

/-- Progress changes no range, so no ownership. -/
theorem owns_set {ws : List Worker} {w : Nat} {k k' : Worker} (hk : ws[w]? = some k) (hl : k'.lo = k.lo)
    (hh : k'.hi = k.hi) (w' i : Nat) : Owns (ws.set w k') w' i ↔ Owns ws w' i := by
  unfold Owns
  have hlt : w < ws.length := (List.getElem?_eq_some_iff.1 hk).1
  by_cases h : w = w'
  · subst h
    rw [List.getElem?_set_self hlt, hk]
    simp [hl, hh]
  · rw [List.getElem?_set_ne h]

/-- R127, R134: the block a worker is about to process lies in the buffer. -/
theorem block_in_buffer {s : State} (hr : RangesLegal s) {w : Nat} {k : Worker} (hk : s.workers[w]? = some k)
    (hlt : k.nx < k.hi) :
    s.addrl.toNat ≤ blockAddress s.addrl k.nx ∧
      blockAddress s.addrl k.nx + 16 ≤ s.addrl.toNat + 16 * s.nbl.toNat := by
  have hm := hr.ordered k (List.mem_of_getElem? hk)
  simp only [BitVec.le_def, BitVec.lt_def] at *
  unfold blockAddress
  omega

/-- A transfer of the ranges' law between states that agree in everything but the model's own fields. -/
theorem rangesLegal_of_coreEq {u t : State} (h : CoreEq u t) (hu : RangesLegal u) : RangesLegal t := by
  obtain ⟨hp, _, _, _, _, _, _, _, _, he, ha, hn, hw, _⟩ := h.fields
  exact ⟨by rw [hw, hp]; exact hu.one_each, by rw [hw, hn]; exact hu.ordered, by rw [hw, hn]; exact hu.owned,
    by rw [ha, hn, hp]; exact hu.in_memory, by rw [ha, hn, hp]; exact hu.admitted, by rw [he, hn]; exact hu.no_error⟩

end Sys2Proof.Machine
end

