-- ==== Sys2Proof/Tests/Slice0.lean ====
section
/-! SUPPORT. Tests of the model against values written out in the spec (95_test_vectors.md, 30_encoding.md), and for
every statement of Obligations.lean that has hypotheses a witness that meets them. -/

namespace Sys2Proof.Tests

open Sys2Proof Sys2Proof.Machine Sys2Proof.Safety

/-! ### Helpers -/

/-- The next state, if there is one. -/
def nextOf (o : Host.Outcome State Fault Refusal) : Option State :=
  match o with
  | .next s => some s
  | .fault _ | .refused _ => none

/-- A field of the next state. -/
def afterStep {α : Type} (f : State → α) (o : Host.Outcome State Fault Refusal) : Option α := (nextOf o).map f

theorem next_of_isSome {o : Host.Outcome State Fault Refusal} (h : (nextOf o).isSome = true) : ∃ t, o = .next t := by
  cases o with
  | next t => exact ⟨t, rfl⟩
  | fault e => exact absurd h (by simp [nextOf])
  | refused e => exact absurd h (by simp [nextOf])

/-- The key of FIPS-197 A.1, as KEY0..KEY3. -/
def keyA : Quad := #v[0x2b7e1516, 0x28aed2a6, 0xabf71588, 0x09cf4f3c]

/-- The key of FIPS-197 C.1, as KEY0..KEY3. -/
def keyC : Quad := #v[0x00010203, 0x04050607, 0x08090a0b, 0x0c0d0e0f]

/-- An idle core with a valid schedule for a key. -/
def keyed (k : Quad) : State :=
  { State.reset with key := k, rk := keyExpansion (blockOfQuad k), kv := true }

/-- A core with a command in progress that passed its checks, at the controller's turn. -/
def running (op : Nibble) (s : State) : State :=
  { s with status := Status.accepted, opl := op, turn := .controller }

/-- Memory with the words of a block at an address. -/
def withBlock (a : Nat) (q : Quad) (s : State) : State := { s with mem := writeBlock s.mem a (blockOfQuad q) }

/-- An idle core with a valid schedule and a buffer of `len` bytes at `a`. -/
def buffered (a len : Word) : State := { keyed keyA with addr := a, len := len }

/-- The four words at an address. -/
def wordsAt (a : Nat) (s : State) : Quad := quadOfBlock (readBlock s.mem a)

/-! ### Ill-formed terms are refused -/

theorem test_wf_reserved_bits : CmdWord.wf { op := 0x0, rsv := 0x1 } = false := by decide
theorem test_wf_reserved_opcode : CmdWord.wf { op := 0x7, rsv := 0 } = false := by decide
theorem test_wf_opcode_above_map : CmdWord.wf { op := 0x9, rsv := 0 } = false := by decide
theorem test_wf_no_worker : Platform.wf { Platform.default with numWorkers := 0 } = false := by decide
theorem test_wf_too_many_workers : Platform.wf { Platform.default with numWorkers := 256 } = false := by decide
theorem test_wf_width_zero : Platform.wf { Platform.default with addrWidth := 0 } = false := by decide
theorem test_wf_width_above : Platform.wf { Platform.default with addrWidth := 33 } = false := by decide
theorem test_wf_base_unaligned : Platform.wf { Platform.default with base := 0x80 } = false := by decide
theorem test_wf_label_twice :
    hostProgramWf [{ label := some 1, op := .rd .status 0 }, { label := some 1, op := .rd .status 0 }] = false := by
  decide
theorem test_wf_branch_bit : hostProgramWf [{ label := some 1, op := .bnz 0 32 1 }] = false := by decide
theorem test_wf_branch_label : hostProgramWf [{ label := some 1, op := .bnz 0 0 2 }] = false := by decide
theorem test_wf_good : hostProgramWf (expandProgram 1 [.command .nop, .poll 3]) = true := by decide

/-! ### Decoding, each word written out from 30_encoding.md R70 and R72: RSV in bits 31:4, OP in bits 3:0 -/

theorem test_decode_nop : decode 0b0000000000000000000000000000_0000#32 = .command .nop := by decide
theorem test_decode_keyexp : decode 0b0000000000000000000000000000_0001#32 = .command .keyexp := by decide
theorem test_decode_encb : decode 0b0000000000000000000000000000_0010#32 = .command .encb := by decide
theorem test_decode_decb : decode 0b0000000000000000000000000000_0011#32 = .command .decb := by decide
theorem test_decode_ecbe : decode 0b0000000000000000000000000000_0100#32 = .command .ecbe := by decide
theorem test_decode_ecbep : decode 0b0000000000000000000000000000_0101#32 = .command .ecbep := by decide
theorem test_decode_ecbd : decode 0b0000000000000000000000000000_0110#32 = .command .ecbd := by decide
theorem test_decode_zeroize : decode 0b0000000000000000000000000000_1000#32 = .command .zeroize := by decide
theorem test_decode_reserved_bit : decode 0b0000000000000000000000000001_0000#32 = .illegal .reservedBits := by decide
theorem test_decode_reserved_op : decode 0b0000000000000000000000000000_0111#32 = .illegal .reservedOpcode := by decide
theorem test_decodeTableWord : decodeTableWord 32 0x5 = some .ecbep := by decide
theorem test_decodeTableWord_refuses : decodeTableWord 32 0x7 = none := by decide

/-- The first step after reset runs the word written to CMD: KEYEXP is accepted. -/
theorem test_first_step :
    afterStep (fun t => (statusWord t, t.opl)) (step (State.reset.withFetchWord 32 0x1)) = some (0x1, 0x1) := by
  decide

/-! ### Field, tables, transforms (95_test_vectors.md 3.1 to 3.4) -/

theorem test_xtime : xtime 0x57 = 0xae ∧ xtime 0xae = 0x47 ∧ xtime 0x80 = 0x1b ∧ xtime 0xff = 0xe5 := by decide
theorem test_ginv : ginv 0x53 = 0xca ∧ ginv 0x02 = 0x8d ∧ ginv 0x00 = 0x00 := by decide +kernel
theorem test_sbox : sbox 0x00 = 0x63 ∧ sbox 0x53 = 0xed ∧ sbox 0xc9 = 0xdd ∧ sbox 0xff = 0x16 := by decide +kernel
theorem test_invSbox : invSbox 0x00 = 0x52 ∧ invSbox 0x10 = 0x7c ∧ invSbox 0x63 = 0x00 ∧ invSbox 0xff = 0x7d := by
  decide +kernel

/-- V-SR-1. -/
theorem test_shiftRows :
    shiftRows (blockOfQuad keyC) = blockOfQuad #v[0x00050a0f, 0x04090e03, 0x080d0207, 0x0c01060b] ∧
    invShiftRows (blockOfQuad keyC) = blockOfQuad #v[0x000d0a07, 0x04010e0b, 0x0805020f, 0x0c090603] := by
  decide +kernel

/-- V-MC-1, V-MC-2, V-MC-5, V-MC-7 as the four columns of one state. -/
theorem test_mixColumns :
    mixColumns (blockOfQuad #v[0xdb135345, 0xf20a225c, 0xd4d4d4d5, 0x80000000]) =
      blockOfQuad #v[0x8e4da1bc, 0x9fdc589d, 0xd5d5d7d6, 0x1b80809b] := by decide +kernel

/-- V-MC-8. -/
theorem test_invMixColumns :
    columnWord (invMixColumns (blockOfQuad #v[0x00000001, 0x8e4da1bc, 0, 0])) 0 = 0x090d0b0e ∧
    columnWord (invMixColumns (blockOfQuad #v[0x00000001, 0x8e4da1bc, 0, 0])) 1 = 0xdb135345 := by decide +kernel

/-- V-KE-5, V-KE-6, V-KE-8. -/
theorem test_key_words :
    rotWord 0x09cf4f3c = 0xcf4f3c09 ∧ subWord 0xcf4f3c09 = 0x8a84eb01 ∧
    rcon 1 = 0x01000000 ∧ rcon 9 = 0x1b000000 ∧ rcon 10 = 0x36000000 := by decide +kernel

/-! ### Commands -/

/-- V-ERR-13: NOP accepted from STATUS = 0x13C (KV = 1) and completed. -/
theorem test_nop :
    let s := { keyed keyA with
      status := { busy := false, done := true, err := true, errcode := 3, wign := true } }
    afterStep statusWord (exec .nop s) = some 0x9 ∧
      afterStep statusWord (exec .nop { accept 0x0 s with turn := .controller }) = some 0xA := by decide

/-- V-KE-1, V-ERR-10. -/
theorem test_keyexp :
    afterStep (fun t => (t.rk[4], t.rk[43], statusWord t)) (exec .keyexp (running 0x1 { State.reset with key := keyA })) =
      some (0xa0fafe17, 0xb6630ca6, 0xA) := by decide +kernel

/-- V-BLK-T: FIPS-197 Appendix B. -/
theorem test_encb :
    afterStep (fun t => (t.blk, statusWord t))
      (exec .encb (running 0x2 { keyed keyA with blk := #v[0x3243f6a8, 0x885a308d, 0x313198a2, 0xe0370734] })) =
      some (#v[0x3925841d, 0x02dc09fb, 0xdc118597, 0x196a0b32], 0xA) := by decide +kernel

/-- V-BLK-5: the C.1 ciphertext decrypted. -/
theorem test_decb :
    afterStep (fun t => t.blk)
      (exec .decb (running 0x3 { keyed keyC with blk := #v[0x69c4e0d8, 0x6a7b0430, 0xd8cdb780, 0x70b4c55a] })) =
      some #v[0x00112233, 0x44556677, 0x8899aabb, 0xccddeeff] := by decide +kernel

/-- V-ECB-8: the last block of a 2^32-byte memory, by worker 0. -/
theorem test_ecbe :
    let s := withBlock 0xFFFFFFF0 #v[0x30c81c46, 0xa35ce411, 0xe5fbc119, 0x1a0a52ef] (buffered 0xFFFFFFF0 0x10)
    afterStep (fun t => (wordsAt 0xFFFFFFF0 t, t.workers[0]?.map (·.nx)))
      (exec .ecbe { accept 0x4 s with turn := .worker 0 }) =
      some (#v[0x43b1cd7f, 0x598ece23, 0x881b00e3, 0xed030688], some 1) := by decide +kernel

/-- V-ECB-1, block 1, processed first, by worker 1; block 0 is left alone. -/
theorem test_ecbep :
    let s := withBlock 0x1010 #v[0xae2d8a57, 0x1e03ac9c, 0x9eb76fac, 0x45af8e51] (buffered 0x1000 0x20)
    afterStep (fun t => (wordsAt 0x1010 t, wordsAt 0x1000 t))
      (exec .ecbep { accept 0x5 s with turn := .worker 1 }) =
      some (#v[0xf5d3d585, 0x03b9699d, 0xe785895a, 0x96fdbaaf], #v[0, 0, 0, 0]) := by decide +kernel

/-- V-ECB-3, block 0. -/
theorem test_ecbd :
    let s := withBlock 0x1000 #v[0x3ad77bb4, 0x0d7a3660, 0xa89ecaf3, 0x2466ef97] (buffered 0x1000 0x20)
    afterStep (wordsAt 0x1000) (exec .ecbd { accept 0x6 s with turn := .worker 0 }) =
      some #v[0x6bc1bee2, 0x2e409f96, 0xe93d7e11, 0x7393172a] := by decide +kernel

/-- V-ERR-11. -/
theorem test_zeroize :
    afterStep (fun t => (statusWord t, t.key, t.rk[0])) (exec .zeroize (running 0x8 (keyed keyA))) =
      some (0x2, #v[0, 0, 0, 0], 0) := by decide +kernel

/-! ### Errors (95_test_vectors.md 3.7 and 3.9) -/

/-- V-ERR-1 to V-ERR-4, V-ERR-5 (ILLEGAL beats NOKEY). -/
theorem test_illegal :
    check 0x7 (keyed keyA) = 1 ∧ check 0x10 (keyed keyA) = 1 ∧ check 0x80000001 (keyed keyA) = 1 ∧
    check 0xF (keyed keyA) = 1 ∧ check 0x7 { State.reset with len := 0xF } = 1 := by decide

/-- V-ERR-6, V-ERR-7 (NOKEY beats LENGTH), V-ERR-10, V-ERR-12. -/
theorem test_nokey :
    check 0x2 State.reset = 2 ∧ check 0x4 { State.reset with len := 0xF } = 2 ∧ check 0x1 State.reset = 0 ∧
    check 0x8 State.reset = 0 := by decide

/-- V-ECB-6, V-ECB-7, V-ERR-9 (LENGTH beats RANGE). -/
theorem test_length :
    check 0x4 (buffered 0x1000 0xF) = 3 ∧ check 0x6 (buffered 0x1000 0x11) = 3 ∧
    check 0x6 (buffered 0xFFFFFFFF 0x14) = 3 := by decide

/-- V-ECB-5, V-ECB-8, V-ECB-9, V-ECB-10, V-ECB-11, V-ECB-12. -/
theorem test_range :
    check 0x4 (buffered 0x1000 0) = 0 ∧ check 0x4 (buffered 0xFFFFFFF0 0x10) = 0 ∧
    check 0x4 (buffered 0xFFFFFFF0 0x20) = 4 ∧
    check 0x5 { buffered 0xFFF0 0x20 with platform := { Platform.default with addrWidth := 16 } } = 4 ∧
    check 0x4 { buffered 0x2000 0x20 with platform := { Platform.default with holes := [⟨0x201F, 0x2020⟩] } } = 4 ∧
    check 0x4 (buffered 0x1000 0xFFFFFFF0) = 4 := by decide

/-- V-ERR-8: STATUS while busy and after completion. -/
theorem test_error_status :
    statusWord (accept 0x5 (buffered 0x1000 0x14)) = 0x9 ∧
    afterStep statusWord (exec .ecbep { accept 0x5 (buffered 0x1000 0x14) with turn := .controller }) = some 0x3C := by
  decide

/-- 95_test_vectors.md 3.9: a write while busy is lost and leaves WIGN. -/
theorem test_write_while_busy :
    afterStep (fun t => (statusWord t, t.key, t.kv)) (busWrite 0x20 32 0x12345678 (running 0x2 (keyed keyA))) =
      some (0x109, keyA, true) := by decide

theorem test_config : configWord Platform.default = 0x040A1004 ∧
    configWord { Platform.default with numWorkers := 1 } = 0x040A1001 := by decide

/-- V-PAR-2, V-PAR-6: the ranges [0,2), [2,4), [4,5), [5,5) and [0,1), [1,2), [2,2). -/
theorem test_partition :
    (parallelRanges Platform.default 5).map (fun k => (k.lo.toNat, k.hi.toNat)) = [(0, 2), (2, 4), (4, 5), (5, 5)] ∧
    (parallelRanges { Platform.default with numWorkers := 3 } 2).map (fun k => (k.lo.toNat, k.hi.toNat)) =
      [(0, 1), (1, 2), (2, 2)] := by decide

/-- Program P1, steps 4 to 6: the bus transactions of a KEY write, of KEYEXP's command write and of SETBLK's words. -/
theorem test_transactions :
    (expandOp 1 (.setKey (blockOfQuad keyC))).flatMap (fun l => transactions Platform.default l.op) =
      [.busWrite 0x20 32 0x00010203, .busWrite 0x24 32 0x04050607, .busWrite 0x28 32 0x08090a0b,
       .busWrite 0x2C 32 0x0c0d0e0f] ∧
    (expandOp 1 (.command .keyexp)).flatMap (fun l => transactions Platform.default l.op) =
      [.busWrite 0x00 32 0x1, .busRead 0x04 32 0] ∧
    (expandOp 1 (.setBuf 0x1000 0x20)).flatMap (fun l => transactions Platform.default l.op) =
      [.busWrite 0x0C 32 0x1000, .busWrite 0x10 32 0x20] := by decide

/-! ### Witnesses: a state and operands that meet all hypotheses of each statement that has some -/

/-- Another build: 3 workers, 16 address bits, the window at 0x400, one hole. -/
def smallPlatform : Platform := { numWorkers := 3, addrWidth := 16, base := 0x400, holes := [⟨0x8000, 0x8010⟩] }

theorem witness_IllegalWordsEndIllegal :
    (State.reset.platform.wf = true ∧ State.reset.status.busy = false) ∧
    ((0x10#32).extractLsb' 4 28 ≠ 0 ∧ (0x7#32).extractLsb' 0 4 = 7 ∧ 9 ≤ (0x9#32).extractLsb' 0 4) := by decide

theorem witness_StepRunsTheWrittenCommand :
    let s := { State.reset with inputs := [commandEvent Platform.default 0x8] }
    s.platform.wf = true ∧ decode 0x8 = .command .zeroize ∧
      s.inputs = commandEvent s.platform 0x8 :: [] ∧ decodeTableWord 32 0x8 = some .zeroize := by decide

theorem witness_StepRunsTheCommandInProgress :
    let s := running 0x4 (keyed keyA)
    s.opl = Instr.ecbe.opcode ∧ { s with inputs := [.controller] }.inputs = .controller :: [] ∧
      { s with inputs := [.worker 3] }.inputs = .worker 3 :: [] := by decide

theorem witness_AcceptanceSetsStatusAndLatches :
    let s := buffered 0x1000 0x20
    let s' := { s with blk := keyA, mem := [(0, 1)], platform := { s.platform with numWorkers := 7 } }
    s'.kv = s.kv ∧ s'.addr = s.addr ∧ s'.len = s.len ∧ s'.platform.addrWidth = s.platform.addrWidth ∧
      s'.platform.holes = s.platform.holes ∧
    s.platform.wf = true ∧ s.turn = .host ∧ s.status.busy = false ∧ check 0x5 s = 0 ∧ check 0x7 s ≠ 0 := by decide

theorem witness_EveryCommandIsAcceptedOrIgnored :
    let s := buffered 0xFFFFFFF0 0x10
    s.turn = .host ∧ s.status.busy = false ∧ check (encode .ecbd) s = 0 ∧
      { s with status := Status.accepted }.status.busy = true := by decide

/-- One state and word for each clause, at the borders: RSV = 0 and OP = 8; KV = 0; LEN = 0xF; ADDR + LEN above 2^32 by
16; the byte below a hole; ADDR + LEN = 2^32. -/
theorem witness_CheckFollowsThePriority :
    check 0x8 State.reset = 0 ∧ check 0x9 State.reset = 1 ∧ check 0x6 State.reset = 2 ∧
    check 0x4 (buffered 0 0xF) = 3 ∧ check 0x4 (buffered 0xFFFFFFF0 0x20) = 4 ∧
    check 0x4 { buffered 0x7FF0 0x20 with platform := smallPlatform } = 4 ∧
    check 0x4 { buffered 0x7FF0 0x10 with platform := smallPlatform } = 0 ∧
    check 0x6 (buffered 0xFFFFFFF0 0x10) = 0 := by decide

theorem witness_SequentialAssignment : 0 < smallPlatform.numWorkers ∧ 2 < smallPlatform.numWorkers := by decide

/-- n = 5 on P = 4: a range that ends below n, one that ends at n, the empty one after it. -/
theorem witness_ParallelPartition :
    Platform.default.wf = true ∧
    (parallelRanges Platform.default 5)[0]? = some { lo := 0, hi := 2, nx := 0 } ∧
    (parallelRanges Platform.default 5)[2]? = some { lo := 4, hi := 5, nx := 4 } ∧
    (parallelRanges Platform.default 5)[2 + 1]? = some { lo := 5, hi := 5, nx := 5 } ∧
    3 + 1 = Platform.default.numWorkers := by decide

theorem witness_ConfigIsConstant :
    smallPlatform.wf = true ∧ Platform.default.wf = true ∧ Platform.default.numWorkers = 4 ∧
    ∃ t, step { keyed keyA with inputs := [.reset] } = .next t := ⟨by decide, by decide, rfl, _, rfl⟩

/-- The first and the last of the reserved offsets. -/
theorem witness_WindowReads :
    { State.reset with platform := smallPlatform }.platform.wf = true ∧ 0x14 % 4 = 0 ∧
    (0xFC % 4 = 0 ∧ 0x40 ≤ 0xFC ∧ 0xFC < 0x100) := by decide

/-- Both clauses, and the borders where they meet: OPL 2 and 3 with ECL = 2 (NOKEY, the first clause) and with ECL = 1
(ILLEGAL, the second), OPL 1 and 4 beside them, and an idle core. -/
theorem witness_BlockReadsDuringBlockCommands :
    let blk := fun s : State =>
      s.status.busy = true ∧ s.ecl ≠ 1 ∧ (s.opl = Instr.encb.opcode ∨ s.opl = Instr.decb.opcode)
    let s := fun op e : Nibble => { running op (keyed keyA) with ecl := e }
    (s 0x2 0).platform.wf = true ∧
    (blk (s 0x2 0) ∧ blk (s 0x3 0) ∧ blk (s 0x2 2) ∧ blk (s 0x3 2)) ∧
    (¬blk (s 0x2 1) ∧ ¬blk (s 0x3 1) ∧ ¬blk (s 0x1 0) ∧ ¬blk (s 0x4 0) ∧
      ¬blk { s 0x2 0 with status := Status.reset }) := by decide

theorem witness_AcceptedRegisterWrites :
    (keyed keyA).platform.wf = true ∧ (keyed keyA).status.busy = false := by decide

theorem witness_WritesWhileBusyAreIgnored :
    let s := { running 0x2 (keyed keyA) with turn := .host }
    s.platform.wf = true ∧ s.turn = .host ∧ s.status.busy = true ∧
      Reg.cmd ≠ .status ∧ Reg.cmd ≠ .config ∧ Reg.blk 3 ≠ .status ∧ Reg.blk 3 ≠ .config := by decide

theorem witness_ReservedAndReadOnly :
    { State.reset with platform := smallPlatform }.platform.wf = true ∧
    (0x14 < 256 ∧ 0x14 % 4 = 0) ∧ (0xFC < 256 ∧ 0xFC % 4 = 0 ∧ 0x40 ≤ 0xFC) ∧
    (0x08 < 256 ∧ 0x08 % 4 = 0) := by decide

/-- The first and the last byte of the window; a narrow, an unaligned and a good access. -/
theorem witness_WrongWindowAccessFaults :
    let s := { State.reset with platform := smallPlatform }
    s.platform.wf = true ∧ s.turn = .host ∧
    (s.platform.base ≤ 0x400 ∧ 0x400 < s.platform.base + 256 ∧ 8 ≠ 32 ∧ 0x400 % 4 = 0) ∧
    (s.platform.base ≤ 0x4FF ∧ 0x4FF < s.platform.base + 256 ∧ 0x4FF % 4 ≠ 0) ∧
    (s.platform.base ≤ 0x4FC ∧ 0x4FC < s.platform.base + 256 ∧ 0x4FC % 4 = 0) := by decide

theorem witness_WindowHidesTheKey :
    { State.reset with key := keyA } =
      { State.reset with key := { State.reset with key := keyA }.key, rk := { State.reset with key := keyA }.rk } := by
  decide

/-- Each case of the completion step: not enabled, with an error, each command, an ECB command that has joined. -/
theorem witness_CompletionStep :
    let s := running 0x1 (keyed keyA)
    s.turn = .controller ∧ s.status.busy = true ∧ s.ecl = 0 ∧ ¬(s.opl = 4 ∨ s.opl = 5 ∨ s.opl = 6) ∧
      { s with ecl := 2 }.ecl ≠ 0 ∧ { s with opl := 0x8 }.opl = 0x8 ∧
      (∀ k ∈ (running 0x4 (keyed keyA)).workers, k.nx = k.hi) ∧
      (running 0x4 { keyed keyA with workers := sequentialRanges Platform.default 1 }).workers[0]? =
        some { lo := 0, hi := 1, nx := 0 } := by decide

/-- For NopCompletes, KeyexpCompletes, EncbCompletes, DecbCompletes and ZeroizeCompletes, with op 0, 1, 2, 3 and 8. -/
theorem witness_Completions :
    (∀ op : Nibble, (running op (keyed keyA)).turn = .controller ∧
      (running op (keyed keyA)).status.busy = true ∧ (running op (keyed keyA)).ecl = 0 ∧
      (running op (keyed keyA)).opl = op) := by intro op; exact ⟨rfl, rfl, rfl, rfl⟩

/-- An ECB command right after acceptance: two blocks at the top of memory. -/
def ecbState (i : Instr) : State := accept (encode i) (buffered 0xFFFFFFE0 0x20)

/-- Worker 1 of ECBEP and its only block, the last block of memory. -/
theorem witness_EcbWorkerStep :
    let s := { ecbState .ecbep with turn := .worker 1 }
    let k : Worker := { lo := 1, hi := 2, nx := 1 }
    s.turn = .worker 1 ∧ s.status.busy = true ∧ s.opl = Instr.ecbep.opcode ∧ s.ecl = 0 ∧
      s.workers[1]? = some k ∧ k.nx < k.hi ∧ Memory.wf s.mem ∧
      s.addrl.toNat + 16 * k.nx.toNat + 15 < 2 ^ s.platform.addrWidth := by decide

theorem witness_EcbJoin :
    let s := { ecbState .ecbe with turn := .controller }
    s.turn = .controller ∧ s.status.busy = true ∧ s.opl = Instr.ecbe.opcode ∧ s.ecl = 0 ∧
      (∃ k ∈ s.workers, k.nx ≠ k.hi) ∧
      (∀ k ∈ { s with workers := noRanges s.platform }.workers, k.nx = k.hi) := by decide

theorem witness_ErrorsArePrecise :
    let s := buffered 0x1000 0x14
    s.turn = .host ∧ s.status.busy = false ∧ check (encode .ecbep) s ≠ 0 := by decide

theorem witness_WorkerStepsExactlyWhenReady : { ecbState .ecbd with turn := .worker 0 }.turn = .worker 0 := by decide

theorem witness_NoStepLeavesTheState :
    let s := { ecbState .ecbe with turn := .controller }
    s.turn = .controller ∧ ¬(s.status.busy = true ∧ s.opl = Instr.nop.opcode) ∧
      { s with turn := .worker 1 }.turn = .worker 1 ∧ s.workers[1]? = some Worker.idle := by decide

/-- Each agent's step of a command without buffer answers a next state. -/
theorem witness_RegisterCommandsFrame :
    (∃ t, exec .encb (keyed keyA) = .next t) ∧ (∃ t, exec .zeroize (running 0x8 (keyed keyA)) = .next t) ∧
    (∃ t, exec .keyexp { running 0x1 (keyed keyA) with turn := .worker 0 } = .next t) :=
  ⟨⟨_, rfl⟩, ⟨_, rfl⟩, ⟨_, rfl⟩⟩

/-- Each agent's step of an ECB command answers a next state. -/
theorem witness_BufferCommandsFrame :
    (nextOf (exec .ecbe (buffered 0x1000 0x10))).isSome = true ∧
    (nextOf (exec .ecbe { ecbState .ecbe with turn := .controller })).isSome = true ∧
    (nextOf (exec .ecbep { ecbState .ecbep with turn := .worker 1 })).isSome = true := by decide +kernel

theorem witness_SubstitutionTables : (0x01 : Byte) ≠ 0 ∧ (0xff : Byte) ≠ 0 := by decide

theorem witness_EncbThenDecbRestores :
    (keyed keyA).turn = .host ∧ (keyed keyA).status.busy = false ∧ (keyed keyA).kv = true := by decide

/-! Legal states -/

/-- An idle core with a schedule for the key it holds is legal. -/
theorem legal_buffered (a len : Word) : Legal (buffered a len) where
  platform := by change Platform.default.wf = true; decide
  memory := ⟨wf_nil, by simp [buffered, keyed, State.reset]⟩
  status := ⟨by simp [buffered, keyed, State.reset, Status.reset], by simp [buffered, keyed, State.reset, Status.reset],
    by simp [buffered, keyed, State.reset, Status.reset], by simp [buffered, keyed, State.reset, Status.reset],
    by simp [buffered, keyed, State.reset]⟩
  schedule := ⟨fun _ => rfl, fun h => absurd h (by simp [buffered, keyed, State.reset, Status.reset])⟩
  ranges := ⟨by simp [buffered, keyed, State.reset], by simp [buffered, keyed, State.reset, Worker.idle],
    by simp [buffered, keyed, State.reset],
    by simp [buffered, keyed, State.reset], by simp [buffered, keyed, State.reset, rangeOK], fun _ => rfl⟩

/-- Two blocks, owned by workers 0 and 1 (ECBEP) or both by worker 0 (ECBE, ECBD). -/
theorem owned_of_any {ws : List Worker} {n : Nat}
    (h : (∀ i < n, ∃ w < ws.length, (ws[w]?).any (fun k => decide (k.lo.toNat ≤ i ∧ i < k.hi.toNat)) = true ∧
      ∀ w' < ws.length, (ws[w']?).any (fun k => decide (k.lo.toNat ≤ i ∧ i < k.hi.toNat)) = true → w' = w)) :
    ∀ i < n, ∃ w, Owns ws w i ∧ ∀ w', Owns ws w' i → w' = w := by
  have key : ∀ w i, Owns ws w i ↔ (ws[w]?).any (fun k => decide (k.lo.toNat ≤ i ∧ i < k.hi.toNat)) = true := by
    intro w i
    cases hw : ws[w]? <;> simp [Owns, hw]
  intro i hi
  obtain ⟨w, _, h1, h2⟩ := h i hi
  refine ⟨w, (key w i).2 h1, fun w' hw' => h2 w' ?_ ((key w' i).1 hw')⟩
  obtain ⟨k, hk, _⟩ := hw'
  exact (List.getElem?_eq_some_iff.1 hk).1

/-- The state right after ECBE, ECBEP or ECBD is accepted is one the ECB statements speak of. -/
theorem fresh_ecbState (i : Instr) (hi : usesBuffer i = true) : FreshBuffer i (ecbState i) := by
  have legal : Legal (ecbState i) := by
    refine ⟨?_, ⟨?_, ?_⟩, ⟨?_, ?_, ?_, ?_, ?_⟩, ⟨fun _ => ?_, fun _ _ _ => ?_⟩, ⟨?_, ?_, owned_of_any ?_, ?_, ?_, ?_⟩⟩ <;>
      cases i <;> first | (exact absurd hi (by decide)) | decide
  cases i <;> first | (exact absurd hi (by decide)) | exact ⟨legal, rfl, by decide, by decide, by decide, by decide⟩

/-- The agents of an ECB command of two blocks complete it, in two interleavings. -/
theorem runs_ecbState :
    (∃ t, RunsTo (ecbState .ecbe) [.worker 0, .worker 0, .controller] t ∧ t.status.busy = false) ∧
    (∃ t, RunsTo (ecbState .ecbep) [.worker 1, .controller, .worker 0, .controller] t ∧ t.status.busy = false) ∧
    (∃ t, RunsTo (ecbState .ecbd) [.worker 0, .worker 0, .controller] t ∧ t.status.busy = false) :=
  ⟨⟨_, ⟨rfl, rfl⟩, rfl⟩, ⟨_, ⟨rfl, rfl⟩, rfl⟩, ⟨_, ⟨rfl, rfl⟩, rfl⟩⟩

theorem witness_EcbNetEffect :
    ∃ t, FreshBuffer .ecbep (ecbState .ecbep) ∧
      RunsTo (ecbState .ecbep) [.worker 1, .controller, .worker 0, .controller] t ∧ t.status.busy = false := by
  obtain ⟨_, ⟨t, h1, h2⟩, _⟩ := runs_ecbState
  exact ⟨t, fresh_ecbState .ecbep rfl, h1, h2⟩

theorem witness_AcceptedBufferIsFresh :
    let s := buffered 0xFFFFFFE0 0x20
    Legal s ∧ usesBuffer .ecbd = true ∧ s.turn = .host ∧ s.status.busy = false ∧ check (encode .ecbd) s = 0 :=
  ⟨legal_buffered _ _, by decide⟩

theorem witness_ParallelEqualsSequential :
    ∃ t t', FreshBuffer .ecbep (ecbState .ecbep) ∧ FreshBuffer .ecbe (ecbState .ecbe) ∧
      (ecbState .ecbe).mem = (ecbState .ecbep).mem ∧ (ecbState .ecbe).rk = (ecbState .ecbep).rk ∧
      (ecbState .ecbe).addrl = (ecbState .ecbep).addrl ∧ (ecbState .ecbe).nbl = (ecbState .ecbep).nbl ∧
      RunsTo (ecbState .ecbep) [.worker 1, .controller, .worker 0, .controller] t ∧
      RunsTo (ecbState .ecbe) [.worker 0, .worker 0, .controller] t' ∧
      t.status.busy = false ∧ t'.status.busy = false := by
  obtain ⟨⟨t', h1', h2'⟩, ⟨t, h1, h2⟩, _⟩ := runs_ecbState
  exact ⟨t, t', fresh_ecbState .ecbep rfl, fresh_ecbState .ecbe rfl, rfl, rfl, by decide, by decide, h1, h1', h2, h2'⟩

theorem witness_EcbDeterminism :
    ∃ t t', Instr.ecbe ≠ .ecbd ∧ Instr.ecbep ≠ .ecbd ∧ FreshBuffer .ecbe (ecbState .ecbe) ∧
      FreshBuffer .ecbep (ecbState .ecbep) ∧ (ecbState .ecbep).rk = (ecbState .ecbe).rk ∧
      RunsTo (ecbState .ecbe) [.worker 0, .worker 0, .controller] t ∧
      RunsTo (ecbState .ecbep) [.worker 1, .controller, .worker 0, .controller] t' ∧
      t.status.busy = false ∧ t'.status.busy = false ∧
      1 < (ecbState .ecbe).nbl.toNat ∧ 0 < (ecbState .ecbep).nbl.toNat := by
  obtain ⟨⟨t, h1, h2⟩, ⟨t', h1', h2'⟩, _⟩ := runs_ecbState
  exact ⟨t, t', by decide, by decide, fresh_ecbState .ecbe rfl, fresh_ecbState .ecbep rfl, rfl, h1, h1', h2, h2',
    by decide, by decide⟩

theorem witness_DefaultOrderCompletes :
    Legal (ecbState .ecbd) ∧ (ecbState .ecbd).inputs = [] ∧ (ecbState .ecbd).status.busy = true :=
  ⟨(fresh_ecbState .ecbd rfl).legal, by decide, by decide⟩

/-- The first and the last byte of the buffer, which is the last byte of memory. -/
theorem witness_BufferAccessRaces :
    let s := ecbState .ecbe
    s.status.busy = true ∧ s.opl = Instr.ecbe.opcode ∧
      (s.addrl.toNat ≤ 0xFFFFFFE0 ∧ 0xFFFFFFE0 < s.addrl.toNat + 16 * s.nbl.toNat) ∧
      (s.addrl.toNat ≤ 0xFFFFFFFF ∧ 0xFFFFFFFF < s.addrl.toNat + 16 * s.nbl.toNat ∧
        0xFFFFFFFF < 2 ^ s.platform.addrWidth) := by decide

/-- The byte below the buffer, and any byte of an idle core's memory. -/
theorem witness_OtherBytesAreOrdinaryMemory :
    let s := ecbState .ecbe
    Memory.wf s.mem ∧ 0xFFFFFFDF < 2 ^ s.platform.addrWidth ∧ ¬(s.addrl.toNat ≤ 0xFFFFFFDF) ∧
      Memory.wf State.reset.mem ∧ 0xFFFFFFFF < 2 ^ State.reset.platform.addrWidth ∧
      State.reset.status.busy = false := by decide

theorem witness_CoreChangesOnlyItsBuffer :
    let s := { ecbState .ecbep with inputs := [.worker 0] }
    isCoreEvent (.worker 0) = true ∧ s.inputs = .worker 0 :: [] ∧
      afterStep (fun t => memRead t.mem 0xFFFFFFE0 != memRead s.mem 0xFFFFFFE0) (step s) = some true := by
  decide +kernel

theorem witness_CoreChangesOnlyItsBuffer_legal : Legal { ecbState .ecbep with inputs := [.worker 0] } := by
  have h := (fresh_ecbState .ecbep rfl).legal
  exact ⟨h.platform, h.memory, ⟨h.status.1, h.status.2, h.status.3, h.status.4, h.status.5⟩,
    ⟨h.schedule.1, h.schedule.2⟩, ⟨h.ranges.1, h.ranges.2, h.ranges.3, h.ranges.4, h.ranges.5, h.ranges.6⟩⟩

/-- A busy core and a host whose program is the expansion of `POLL -> 0` with label 7 (R77). -/
def polling : State := { running 0x2 (keyed keyA) with host := { HostState.initial with prog := pollLines 7 0 } }

theorem witness_PollWaitsForCompletion :
    polling.platform.wf = true ∧ polling.host.wordVars.Pairwise (fun c d => c.1 < d.1) ∧
    polling.host.prog[polling.host.pc]? = some { label := some 7, op := .rd .status 0 } ∧
    polling.host.prog[polling.host.pc + 1]? = some { label := none, op := .bnz 0 0 7 } ∧
    labelLine polling.host.prog 7 = some polling.host.pc := by decide

/-- An ECB command in progress and one byte of its buffer; a byte outside. -/
theorem witness_ResetInput :
    let s := { ecbState .ecbd with inputs := [.reset] }
    s.inputs = .reset :: [] ∧ Memory.wf s.mem ∧ (s.status.busy = true ∧ (s.opl = 4 ∨ s.opl = 5 ∨ s.opl = 6)) ∧
      (s.addrl.toNat ≤ 0xFFFFFFFF ∧ 0xFFFFFFFF < s.addrl.toNat + 16 * s.nbl.toNat) ∧
      ¬(s.addrl.toNat ≤ 0xFFFFFFDF) := by decide

/-- For StepKeepsStatusLegal, StepKeepsScheduleLegal and StepKeepsMemoryCanonical: a state that meets their premises and
a step that does something, the completion of a KEYEXP. -/
theorem witness_StepKeeps :
    let s := { accept 0x1 (buffered 0 0) with inputs := [.controller] }
    StatusLegal s ∧ ScheduleLegal s ∧ Memory.wf s.mem ∧ ∃ t, step s = .next t :=
  ⟨⟨by decide, by decide, by decide, by decide, by decide⟩, ⟨fun _ => rfl, by decide⟩, by decide, _, rfl⟩

/-- A legal state and a step that does something: a worker's first block. -/
theorem witness_StepKeepsLegal :
    Legal { ecbState .ecbep with inputs := [.worker 0] } ∧
      ∃ t, step { ecbState .ecbep with inputs := [.worker 0] } = .next t :=
  ⟨witness_CoreChangesOnlyItsBuffer_legal, next_of_isSome (by decide)⟩

theorem witness_CoreNeverStops :
    Legal { ecbState .ecbep with inputs := [.worker 0] } ∧ isCoreEvent (.worker 0) = true ∧
      { ecbState .ecbep with inputs := [.worker 0] }.inputs = .worker 0 :: [] :=
  ⟨witness_CoreChangesOnlyItsBuffer_legal, rfl, rfl⟩

/-- For KeyStateFixedWhileBusy and OneCommandAtATime: a busy core, and a write to KEY0 that it ignores. -/
theorem witness_WhileBusy :
    let s := { ecbState .ecbep with inputs := [.busWrite 0x20 32 0x12345678] }
    s.status.busy = true ∧ s.inputs.head? ≠ some .reset ∧ ∃ t, step s = .next t :=
  ⟨by decide, by decide, next_of_isSome (by decide)⟩

/-- The step that completes the KEYEXP of `witness_StepKeeps` ends the command. -/
theorem witness_OneCommandAtATime_ends :
    afterStep (fun t => t.status.busy) (step { accept 0x1 (buffered 0 0) with inputs := [.controller] }) =
      some false := by decide

/-- WIGN set by the ignored write, and cleared by the next acceptance. -/
theorem witness_WignChangesOnlyByRule :
    let s := { ecbState .ecbep with inputs := [.busWrite 0x20 32 0x12345678] }
    let s' := { keyed keyA with
      status := { busy := false, done := true, err := false, errcode := 0, wign := true }
      inputs := [commandEvent Platform.default 0x0] }
    (s.status.wign = false ∧ afterStep (fun t => t.status.wign) (step s) = some true) ∧
    (s'.status.wign = true ∧ afterStep (fun t => t.status.wign) (step s') = some false) ∧
    s.inputs.head? ≠ some .reset ∧ s'.inputs.head? ≠ some .reset := by decide

end Sys2Proof.Tests
end

/-! SUPPORT. The inversion of a step, packaged for invariants: what holds after each operation a step is made of, holds
after the step. -/

namespace Sys2Proof.Proofs

open Sys2Proof Sys2Proof.Machine Sys2Proof.Safety

/-- The state after worker w's block step: the 16 bytes at ADDRL + 16·nx replaced, nx advanced (R134). -/
abbrev afterBlock (i : Instr) (w : Nat) (k : Worker) (s : State) : State :=
  (s.setMem (writeBlock s.mem (blockAddress s.addrl k.nx)
    (blockFunctionOf i s.rk (readBlock s.mem (blockAddress s.addrl k.nx))))).setWorkers
      (s.workers.set w { k with nx := k.nx + 1 })

/-- The state after a completion without error (R143): the command's work done, DONE set, BUSY cleared. -/
abbrev afterWork (i : Instr) (s : State) : State := (workOf i s).setStatus s.status.completed

/-- The completion step is the error entry, or the work of some command; where OPL names none, NOP's. -/
theorem complete_eq {work : State → State} {s : State}
    (hw : (∃ i, Instr.ofOpcode s.opl = some i ∧ ∀ u, work u = workOf i u) ∨
      (Instr.ofOpcode s.opl = none ∧ ∀ u, work u = u)) :
    (s.ecl ≠ codeNone ∧ complete work s = raiseCmdError s) ∨
    (s.ecl = codeNone ∧ ∃ i, complete work s = afterWork i s) := by
  by_cases he : s.ecl = codeNone
  · refine .inr ⟨he, ?_⟩
    rcases hw with ⟨i, _, hi⟩ | ⟨_, hi⟩
    · refine ⟨i, ?_⟩
      rw [complete_ok he, hi, (workOf_frame i s).2.1]
    · refine ⟨.nop, ?_⟩
      rw [complete_ok he, hi]
      rfl
  · exact .inl ⟨he, complete_error he⟩

/-- To show that P holds after a step it is enough that P does not speak of the model's own fields and holds after each
operation the step can have been. -/
theorem step_elim {P : State → Prop} {s t : State} (h : step s = .next t)
    (coreEq : ∀ {u t}, CoreEq u t → P u → P t)
    (quiet : P s)
    (ignored : s.status.busy = true → P (ignoreWrite s))
    (accepted : ∀ v, s.status.busy = false → P (accept v s))
    (stored : ∀ r v, s.status.busy = false → P (storeReg r v s))
    (memory : ∀ a b, a < memorySize s.platform → P (s.setMem (memWrite s.mem a b)))
    (failed : s.status.busy = true → s.ecl ≠ codeNone → P (raiseCmdError s))
    (worked : ∀ i, s.status.busy = true → s.ecl = codeNone → P (afterWork i s))
    (block : ∀ i w k, workerReady i w s = some k → blockAddress s.addrl k.nx + 16 ≤ memorySize s.platform →
      P (afterBlock i w k s))
    (reset : ∀ es, s.inputs = .reset :: es → P (resetStep s)) : P t := by
  rcases step_move h with hm | ⟨es, hi, rfl⟩
  · cases hm with
    | quiet h => exact coreEq h quiet
    | command v h =>
      refine coreEq h ?_
      cases hb : s.status.busy
      · exact writeCmd_idle hb ▸ accepted v hb
      · exact writeCmd_busy hb ▸ ignored hb
    | operand r v h _ =>
      refine coreEq h ?_
      cases hb : s.status.busy
      · simpa [writeOperandReg, hb] using stored r v hb
      · simpa [writeOperandReg, hb] using ignored hb
    | memory a b h ha _ => exact coreEq h (memory a b ha)
    | completed work h he hw _ =>
      refine coreEq h ?_
      have hb := controllerEnabled_busy he
      rcases complete_eq hw with ⟨hc, heq⟩ | ⟨hc, i, heq⟩
      · exact heq ▸ failed hb hc
      · exact heq ▸ worked i hb hc
    | block i w k hk ha h _ => exact coreEq h (block i w k hk ha)
  · exact coreEq (u := resetStep s) rfl (reset es hi)

/-- What an accepted register write leaves alone (R30 to R33). -/
theorem storeReg_frame (r : Reg) (v : Word) (s : State) :
    (storeReg r v s).platform = s.platform ∧ (storeReg r v s).status = s.status ∧ (storeReg r v s).opl = s.opl ∧
    (storeReg r v s).ecl = s.ecl ∧ (storeReg r v s).addrl = s.addrl ∧ (storeReg r v s).nbl = s.nbl ∧
    (storeReg r v s).workers = s.workers ∧ (storeReg r v s).mem = s.mem ∧ (storeReg r v s).turn = s.turn := by
  cases r <;> simp [storeReg]

/-! ### STATUS (R25, R27) -/

/-- The law of STATUS speaks of STATUS and ECL only; WIGN is free. -/
theorem statusLegal_congr {u t : State} (h : StatusLegal u) (hb : t.status.busy = u.status.busy)
    (hd : t.status.done = u.status.done) (hr : t.status.err = u.status.err)
    (hc : t.status.errcode = u.status.errcode) (he : t.ecl = u.ecl) : StatusLegal t := by
  obtain ⟨h1, h2, h3, h4, h5⟩ := h
  constructor <;> simpa only [hb, hd, hr, hc, he]

/-- R44: after reset nothing is reported. -/
theorem statusLegal_reset : StatusLegal State.reset :=
  ⟨by decide, by decide, by decide, by decide, by decide⟩

/-- R142: acceptance clears what was reported, whatever it was. -/
theorem statusLegal_accept (v : Word) (s : State) : StatusLegal (accept v s) := by
  obtain ⟨-, -, -, -, -, -, -, -, -, -, -, -, hs, -, he⟩ := accept_frame v s
  exact
    { busy_clear := by simp [hs, Status.accepted]
      code_iff_err := by simp [hs, Status.accepted]
      not_both := by simp [hs, Status.accepted]
      code_le := by rw [hs]; decide
      ecl_le := he ▸ check_le v s }

/-- R143: completion without error reports DONE alone, since a busy core reports nothing. -/
theorem statusLegal_completed {s u : State} (h : StatusLegal s) (hb : s.status.busy = true)
    (hu : u.status = s.status.completed) (he : u.ecl = s.ecl) : StatusLegal u := by
  obtain ⟨-, hr, hc⟩ := h.busy_clear hb
  exact
    { busy_clear := by simp [hu, Status.completed]
      code_iff_err := by simp [hu, Status.completed, hr, hc]
      not_both := by simp [hu, Status.completed, hr]
      code_le := hu ▸ h.code_le
      ecl_le := he ▸ h.ecl_le }

/-- R155: the error entry reports the code latched in ECL, which is at most 4. -/
theorem statusLegal_raiseCmdError {s : State} (h : StatusLegal s) (hb : s.status.busy = true)
    (he : s.ecl ≠ codeNone) : StatusLegal (raiseCmdError s) := by
  obtain ⟨hd, -, -⟩ := h.busy_clear hb
  exact
    { busy_clear := by simp [raiseCmdError, Status.failed]
      code_iff_err := ⟨fun _ => rfl, fun _ => he⟩
      not_both := by simp [raiseCmdError, Status.failed, hd]
      code_le := h.ecl_le
      ecl_le := h.ecl_le }

/-- Settles O53: every operation of a step keeps the law of STATUS. -/
theorem stepKeepsStatusLegal : Obligations.StepKeepsStatusLegal := by
  intro s t hs h
  apply step_elim h (P := StatusLegal)
  case coreEq =>
    intro u t htu hu
    obtain ⟨-, hst, -, -, -, -, -, -, -, he, -⟩ := htu.fields
    exact statusLegal_congr hu (by rw [hst]) (by rw [hst]) (by rw [hst]) (by rw [hst]) he
  case quiet => exact hs
  case ignored => exact fun _ => statusLegal_congr hs rfl rfl rfl rfl rfl
  case accepted => exact fun v _ => statusLegal_accept v s
  case stored =>
    intro r v _
    obtain ⟨-, hst, -, he, -⟩ := storeReg_frame r v s
    exact statusLegal_congr hs (by rw [hst]) (by rw [hst]) (by rw [hst]) (by rw [hst]) he
  case memory => exact fun _ _ _ => statusLegal_congr hs rfl rfl rfl rfl rfl
  case failed => exact statusLegal_raiseCmdError hs
  case worked =>
    exact fun i hb _ => statusLegal_completed hs hb rfl (by simp [workOf_frame])
  case block => exact fun _ _ _ _ _ => statusLegal_congr hs rfl rfl rfl rfl rfl
  case reset => exact fun _ _ => statusLegal_congr statusLegal_reset rfl rfl rfl rfl rfl

/-! ### The key schedule (R36) -/

/-- The law of the schedule, for a state with the same key, schedule and command in progress. -/
theorem scheduleLegal_congr {u t : State} (h : ScheduleLegal u) (hv : t.kv = u.kv) (hw : t.rk = u.rk)
    (hk : t.key = u.key) (hb : t.status.busy = u.status.busy) (ho : t.opl = u.opl) (he : t.ecl = u.ecl) :
    ScheduleLegal t := by
  obtain ⟨h1, h2⟩ := h
  constructor <;> simpa only [State.keyBytes, hv, hw, hk, hb, ho, he]

/-- On an idle core the law only says what KV means. -/
theorem scheduleLegal_idle {t : State} (hb : t.status.busy = false)
    (hv : t.kv = true → t.rk = keyExpansion t.keyBytes) : ScheduleLegal t :=
  ⟨hv, fun h => absurd h (by simp [hb])⟩

/-- R147, R151: a command that reads RK is accepted without error only when KV = 1. -/
theorem scheduleLegal_accept {s : State} (h : ScheduleLegal s) (v : Word) : ScheduleLegal (accept v s) := by
  obtain ⟨-, hv, -, -, hk, -, hw, -, -, -, -, -, -, ho, he⟩ := accept_frame v s
  refine ⟨by simpa only [State.keyBytes, hv, hw, hk] using h.valid, fun _ hecl hr => ?_⟩
  obtain ⟨i, hd, hkv, -⟩ := check_none (he ▸ hecl)
  obtain ⟨-, hop⟩ := fields_of_decode hd
  rw [hv]
  refine hkv ?_
  rwa [ho, ← opcode_of_ofOpcode hop, opcodeIs_opcode] at hr

/-- R30 to R33: a register write leaves the key alone or clears KV. -/
theorem scheduleLegal_storeReg {s : State} (h : ScheduleLegal s) (hb : s.status.busy = false) (r : Reg) (v : Word) :
    ScheduleLegal (storeReg r v s) := by
  refine scheduleLegal_idle ((storeReg_frame r v s).2.1 ▸ hb) ?_
  cases r with
  | key j => intro hv; cases hv
  | _ => exact h.valid

/-- R92, R146: what a command's work leaves in KV, RK and KEY0..KEY3 agrees. -/
theorem scheduleLegal_work {s : State} (h : ScheduleLegal s) (i : Instr) : ScheduleLegal (afterWork i s) := by
  refine scheduleLegal_idle rfl ?_
  cases i with
  | keyexp => exact fun _ => rfl
  | zeroize => intro hv; cases hv
  | _ => exact h.valid

/-- Settles O54: every operation of a step keeps the law of the schedule. -/
theorem stepKeepsScheduleLegal : Obligations.StepKeepsScheduleLegal := by
  intro s t hs h
  apply step_elim h (P := ScheduleLegal)
  case coreEq =>
    intro u t htu hu
    obtain ⟨-, hst, hv, -, -, hk, -, hw, ho, he, -⟩ := htu.fields
    exact scheduleLegal_congr hu hv hw hk (by rw [hst]) ho he
  case quiet => exact hs
  case ignored => exact fun _ => scheduleLegal_congr hs rfl rfl rfl rfl rfl rfl
  case accepted => exact fun v _ => scheduleLegal_accept hs v
  case stored => exact fun r v hb => scheduleLegal_storeReg hs hb r v
  case memory => exact fun _ _ _ => scheduleLegal_congr hs rfl rfl rfl rfl rfl rfl
  case failed => exact fun _ _ => scheduleLegal_idle rfl hs.valid
  case worked => exact fun i _ _ => scheduleLegal_work hs i
  case block => exact fun _ _ _ _ _ => scheduleLegal_congr hs rfl rfl rfl rfl rfl rfl
  case reset => exact fun _ _ => scheduleLegal_idle rfl fun hv => by cases hv

/-! ### Data memory (R42) -/

/-- Settles O55: each write of the host, a worker or the reset keeps the canonical form. -/
theorem stepKeepsMemoryCanonical : Obligations.StepKeepsMemoryCanonical := by
  intro s t hs h
  apply step_elim h (P := fun u => Memory.wf u.mem)
  case coreEq =>
    intro u t htu hu
    obtain ⟨-, -, -, -, -, -, -, -, -, -, -, -, -, hm⟩ := htu.fields
    exact hm ▸ hu
  case quiet => exact hs
  case ignored => exact fun _ => hs
  case accepted =>
    intro v _
    obtain ⟨-, -, -, -, -, -, -, hm, -⟩ := accept_frame v s
    exact hm ▸ hs
  case stored =>
    intro r v _
    obtain ⟨-, -, -, -, -, -, -, hm, -⟩ := storeReg_frame r v s
    exact hm ▸ hs
  case memory => exact fun a b _ => memWrite_wf a b hs
  case failed => exact fun _ _ => hs
  case worked => intro i _ _; simpa [workOf_frame] using hs
  case block => exact fun _ _ _ _ _ => writeBlock_wf _ _ hs
  case reset => exact fun _ _ => drawBytes_wf _ _ hs _

/-- R8, R9, R10: the parameters are constants of the build. -/
theorem step_platform {s t : State} (h : step s = .next t) : t.platform = s.platform := by
  apply step_elim h (P := fun u => u.platform = s.platform)
  case coreEq =>
    intro u t htu hu
    exact htu.fields.1.trans hu
  case accepted => exact fun v _ => (accept_frame v s).1
  case stored => exact fun r v _ => (storeReg_frame r v s).1
  case worked => exact fun i _ _ => (workOf_frame i s).1
  all_goals intros; rfl

/-! ### The workers' ranges (R130, R131) -/

/-- The workers' ranges partition the blocks `[0, n)`, and each worker is within its range. -/
structure Partition (ws : List Worker) (n : BlockIndex) : Prop where
  ordered : ∀ k ∈ ws, k.lo ≤ k.nx ∧ k.nx ≤ k.hi ∧ k.hi ≤ n
  owned   : ∀ i < n.toNat, ∃ w, Owns ws w i ∧ ∀ w', Owns ws w' i → w' = w

/-- R44, R142: empty ranges partition no blocks. -/
theorem partition_noRanges (p : Platform) : Partition (noRanges p) 0 where
  ordered k hk := by
    rw [List.eq_of_mem_replicate hk]
    decide
  owned i hi := by simp at hi

/-- R130: worker 0 owns every block. -/
theorem partition_sequentialRanges {p : Platform} (hp : 1 ≤ p.numWorkers) (n : BlockIndex) :
    Partition (sequentialRanges p n) n where
  ordered k hk := by
    obtain ⟨w, hw⟩ := List.mem_iff_getElem?.1 hk
    obtain ⟨-, rfl⟩ := sequentialRanges_get hw
    split <;> simp [Worker.idle, BitVec.le_def]
  owned i hi := by
    refine ⟨0, ⟨{ lo := 0, hi := n, nx := 0 }, ?_, by simp, hi⟩, ?_⟩
    · simp [sequentialRanges, List.getElem?_range hp]
    · rintro w' ⟨k, hk, -, hlt⟩
      obtain ⟨-, rfl⟩ := sequentialRanges_get hk
      by_contra hw
      simp [hw, Worker.idle] at hlt

/-- R131: block i is owned by worker `i / chunk` and no other. -/
theorem partition_parallelRanges {p : Platform} (hp : 1 ≤ p.numWorkers) (n : BlockIndex) :
    Partition (parallelRanges p n) n where
  ordered k hk := by
    obtain ⟨w, hw⟩ := List.mem_iff_getElem?.1 hk
    obtain ⟨-, rfl⟩ := parallelRanges_get hw
    obtain ⟨hlo, hhi, hnx⟩ := parallelRange_toNat p n w
    have hmono : w * chunkSize p n ≤ (w + 1) * chunkSize p n := Nat.mul_le_mul_right _ (by omega)
    rw [hnx]
    simp only [BitVec.le_def, hlo, hhi]
    omega
  owned i hi := by
    have hn : n.toNat ≤ p.numWorkers * chunkSize p n := le_mul_chunk hp
    have hc : 0 < chunkSize p n := Nat.pos_of_ne_zero fun h => by rw [h] at hn; omega
    have hdiv : i / chunkSize p n < p.numWorkers := Nat.div_lt_of_lt_mul (by rw [Nat.mul_comm]; omega)
    refine ⟨i / chunkSize p n, ⟨parallelRange p n (i / chunkSize p n), ?_, ?_, ?_⟩, ?_⟩
    · simp [parallelRanges, List.getElem?_range hdiv]
    · have := Nat.div_mul_le_self i (chunkSize p n)
      rw [(parallelRange_toNat p n _).1]
      omega
    · have := Nat.lt_mul_of_div_lt (Nat.lt_add_one (i / chunkSize p n)) hc
      rw [(parallelRange_toNat p n _).2.1]
      exact lt_min hi this
    · rintro w' ⟨k, hk, hlo, hhi⟩
      obtain ⟨-, rfl⟩ := parallelRanges_get hk
      rw [(parallelRange_toNat p n w').1] at hlo
      rw [(parallelRange_toNat p n w').2.1] at hhi
      exact (Nat.div_eq_of_lt_le (by omega) (by omega)).symm

/-- R142: the ranges an ECB command is given partition its blocks. -/
theorem partition_assignRanges {p : Platform} (hp : 1 ≤ p.numWorkers) {i : Instr} (hi : usesBuffer i = true)
    (n : BlockIndex) : Partition (assignRanges i.opcode p n) n := by
  rw [assignRanges, ofOpcode_opcode]
  cases i with
  | ecbe | ecbd => exact partition_sequentialRanges hp n
  | ecbep => exact partition_parallelRanges hp n
  | nop | keyexp | encb | decb | zeroize => cases hi

/-- R134: a worker that processes a block stays within its range, and no block changes owner. -/
theorem partition_set {ws : List Worker} {n : BlockIndex} (h : Partition ws n) {w : Nat} {k : Worker}
    (hk : ws[w]? = some k) (hlt : k.nx < k.hi) : Partition (ws.set w { k with nx := k.nx + 1 }) n where
  ordered k' hk' := by
    rcases List.mem_or_eq_of_mem_set hk' with hm | rfl
    · exact h.ordered k' hm
    · obtain ⟨h1, -, h3⟩ := h.ordered k (List.mem_of_getElem? hk)
      have hs := nx_succ_toNat hlt
      simp only [BitVec.le_def, BitVec.lt_def] at *
      omega
  owned i hi := by
    simpa only [owns_set (k' := { k with nx := k.nx + 1 }) hk rfl rfl] using h.owned i hi

/-- The law of the ranges, for a state with the same parameters and latches. -/
theorem rangesLegal_congr {u t : State} (h : RangesLegal u) (hp : t.platform = u.platform) (he : t.ecl = u.ecl)
    (ha : t.addrl = u.addrl) (hn : t.nbl = u.nbl) (hw : t.workers = u.workers) : RangesLegal t := by
  obtain ⟨h1, h2, h3, h4, h5, h6⟩ := h
  constructor <;> simpa only [hp, he, ha, hn, hw]

/-- R44, R142: without a buffer the ranges are legal. -/
theorem rangesLegal_noRanges {s : State} (hw : s.workers = noRanges s.platform) (ha : s.addrl = 0) (hn : s.nbl = 0) :
    RangesLegal s where
  one_each := by rw [hw, noRanges_length]
  ordered := by rw [hw, hn]; exact (partition_noRanges s.platform).ordered
  owned := by rw [hw, hn]; exact (partition_noRanges s.platform).owned
  in_memory := by simp [ha, hn]
  admitted := by simp [rangeOK_iff, ha, hn]
  no_error _ := hn

/-- R127, R129: a buffer that passed LENGTH and RANGE is `16·n` bytes long, in memory, at bytes MemOK admits. -/
theorem buffer_of_check {p : Platform} {addr len : Word} (hl : len.toNat % 16 = 0)
    (hr : outOfRange p addr len = false) :
    16 * (blockCount len).toNat = len.toNat ∧ addr.toNat + len.toNat ≤ memorySize p ∧
      rangeOK p addr.toNat (addr.toNat + len.toNat) = true := by
  rw [blockCount_toNat]
  simp [outOfRange] at hr
  exact ⟨by omega, hr⟩

/-- R142: acceptance latches a legal partition of a buffer that passed its checks, or no buffer. -/
theorem rangesLegal_accept {s : State} (hp : s.platform.wf = true) (v : Word) : RangesLegal (accept v s) := by
  by_cases h : check v s = codeNone ∧ opcodeIs usesBuffer (CmdWord.ofWord v).op = true
  · obtain ⟨hc, hb⟩ := h
    rw [accept_buffer hc hb]
    obtain ⟨i, hd, -, hbuf⟩ := check_none hc
    obtain ⟨-, hop⟩ := fields_of_decode hd
    rw [← opcode_of_ofOpcode hop] at hb ⊢
    rw [opcodeIs_opcode] at hb
    obtain ⟨hl, hr⟩ := hbuf hb
    obtain ⟨hn, hm, ha⟩ := buffer_of_check hl hr
    have hpart := partition_assignRanges (platform_wf_workers hp).1 hb (blockCount s.len)
    exact
      { one_each := assignRanges_length _ _ _
        ordered := hpart.ordered
        owned := hpart.owned
        in_memory := by simpa [hn] using hm
        admitted := by simpa [hn] using ha
        no_error := fun h => absurd rfl h }
  · rw [accept_other h]
    exact rangesLegal_noRanges rfl rfl rfl

/-- R134: a block step keeps the ranges legal. -/
theorem rangesLegal_block {s : State} (h : RangesLegal s) {i : Instr} {w : Nat} {k : Worker}
    (hk : workerReady i w s = some k) : RangesLegal (afterBlock i w k s) := by
  obtain ⟨-, -, -, hw, hlt⟩ := workerReady_some hk
  have hpart := partition_set ⟨h.ordered, h.owned⟩ hw hlt
  exact
    { one_each := by simpa using h.one_each
      ordered := hpart.ordered
      owned := hpart.owned
      in_memory := h.in_memory
      admitted := h.admitted
      no_error := h.no_error }

theorem step_keeps_rangesLegal {s t : State} (hp : s.platform.wf = true) (hs : RangesLegal s)
    (h : step s = .next t) : RangesLegal t := by
  apply step_elim h (P := RangesLegal)
  case coreEq => exact fun htu hu => rangesLegal_of_coreEq htu hu
  case quiet => exact hs
  case ignored => exact fun _ => rangesLegal_congr hs rfl rfl rfl rfl rfl
  case accepted => exact fun v _ => rangesLegal_accept hp v
  case stored =>
    intro r v _
    obtain ⟨hp, -, -, he, ha, hn, hw, -⟩ := storeReg_frame r v s
    exact rangesLegal_congr hs hp he ha hn hw
  case memory => exact fun _ _ _ => rangesLegal_congr hs rfl rfl rfl rfl rfl
  case failed => exact fun _ _ => rangesLegal_congr hs rfl rfl rfl rfl rfl
  case worked =>
    intro i _ _
    obtain ⟨hp, -, -, -, -, he, ha, hn, hw, -⟩ := workOf_frame i s
    exact rangesLegal_congr hs hp he ha hn hw
  case block => exact fun _ _ _ hk _ => rangesLegal_block hs hk
  case reset => exact fun _ _ => rangesLegal_noRanges rfl rfl rfl

/-! ### Memory below 2^A (R42) -/

/-- R171: the bytes a reset draws are those of the buffer of the ECB command in progress. -/
theorem inBuffer_iff (s : State) (a : Nat) :
    inBuffer s a = true ↔ s.addrl.toNat ≤ a ∧ a < s.addrl.toNat + bufferBytes s := by
  unfold bufferBytes
  by_cases h : bufferInUse s = true
  · rw [if_pos h]
    simp only [inBuffer, bufferInUse] at h ⊢
    simp [h]
  · rw [if_neg h]
    simp only [inBuffer, bufferInUse] at h ⊢
    simp [h]

/-- R127: a buffer in use lies in data memory, at bytes MemOK admits. -/
theorem inBuffer_admitted {s : State} (h : RangesLegal s) {a : Nat} (ha : inBuffer s a = true) :
    a < memorySize s.platform ∧ memOK s.platform a = true := by
  simp [inBuffer] at ha
  exact ⟨by have := h.in_memory; omega, (rangeOK_iff _ _ _).1 h.admitted a (by omega) (by omega)⟩

/-- A step stores no byte above 2^A. -/
theorem step_keeps_below {s t : State} (hr : RangesLegal s) (hs : ∀ c ∈ s.mem, c.1 < memorySize s.platform)
    (h : step s = .next t) : ∀ c ∈ t.mem, c.1 < memorySize s.platform := by
  apply step_elim h (P := fun u => ∀ c ∈ u.mem, c.1 < memorySize s.platform)
  case coreEq =>
    intro u t htu hu
    obtain ⟨-, -, -, -, -, -, -, -, -, -, -, -, -, hm⟩ := htu.fields
    exact hm ▸ hu
  case quiet => exact hs
  case ignored => exact fun _ => hs
  case accepted =>
    intro v _
    obtain ⟨-, -, -, -, -, -, -, hm, -⟩ := accept_frame v s
    exact hm ▸ hs
  case stored =>
    intro r v _
    obtain ⟨-, -, -, -, -, -, -, hm, -⟩ := storeReg_frame r v s
    exact hm ▸ hs
  case memory =>
    intro a b ha c hc
    rcases mem_memWrite hc with ⟨rfl, -⟩ | hc
    · exact ha
    · exact hs c hc
  case failed => exact fun _ _ => hs
  case worked => intro i _ _; simpa [workOf_frame] using hs
  case block =>
    intro i w k _ ha c hc
    rcases mem_writeBlock hc with hc | hc
    · omega
    · exact hs c hc
  case reset =>
    intro es _ c hc
    rcases mem_drawBytes hc with hc | hc
    · exact (inBuffer_admitted hr ((inBuffer_iff s c.1).2 hc)).1
    · exact hs c hc

/-- Settles O56: each part of `Legal` is kept, the ranges and the bound on memory with the help of the others. -/
theorem stepKeepsLegal : Obligations.StepKeepsLegal := by
  intro s t hs h
  have hp := step_platform h
  have hbelow := step_keeps_below hs.ranges hs.memory.2 h
  exact
    { platform := hp ▸ hs.platform
      memory := ⟨stepKeepsMemoryCanonical s t hs.memory.1 h, hp ▸ hbelow⟩
      status := stepKeepsStatusLegal s t hs.status h
      schedule := stepKeepsScheduleLegal s t hs.schedule h
      ranges := step_keeps_rangesLegal hs.platform hs.ranges h }

end Sys2Proof.Proofs

/-! SUPPORT. The register window: what each access at an offset does, and what no read shows. -/

namespace Sys2Proof.Proofs

open Sys2Proof Sys2Proof.Machine Sys2Proof.Safety

/-! ### Commands written to CMD (R24, R71, R142) -/

/-- R24: the host's write of a command's word to CMD of its window is that command's step. -/
theorem busWrite_command {s : State} (hp : s.platform.wf = true) {v : Word} {i : Instr}
    (hd : decode v = .command i) : busWrite (s.platform.base + Reg.offset .cmd) 32 v s = exec i s := by
  rw [busWrite_reg hp]
  simp only [writeReg, writeCommandReg, hd]

theorem step_commandEvent {s : State} (hp : s.platform.wf = true) {v : Word} {i : Instr} {es : List Event}
    (hd : decode v = .command i) (hi : s.inputs = commandEvent s.platform v :: es) :
    step s = exec i (s.atTurn es .host) := by
  rw [step_input hi]
  exact busWrite_command (s := s.atTurn es .host) hp hd

theorem decode_of_decodeTableWord {nbits w : Nat} {i : Instr} (h : decodeTableWord nbits w = some i) :
    decode (BitVec.ofNat 32 (w % 2 ^ nbits)) = .command i := by
  unfold decodeTableWord at h
  cases hd : decode (BitVec.ofNat 32 (w % 2 ^ nbits)) with
  | command j => rw [hd] at h; cases h; rfl
  | illegal why => rw [hd] at h; cases h

/-- Settles O4: the event is the host's write to CMD, which runs what its word decodes to. -/
theorem stepRunsTheWrittenCommand : Obligations.StepRunsTheWrittenCommand := by
  intro s i hp
  constructor
  · exact fun v es hd hi => step_commandEvent hp hd hi
  · intro w hw
    exact step_commandEvent (s := s.withFetchWord 32 w) hp (decode_of_decodeTableWord hw) rfl

theorem usesBuffer_iff (i : Instr) : usesBuffer i = true ↔ i = .ecbe ∨ i = .ecbep ∨ i = .ecbd := by
  cases i <;> decide

/-- R142: acceptance of a command's own word, every field given. -/
theorem accept_encode (i : Instr) (s : State) :
    let work := check (encode i) s = 0 ∧ (i = .ecbe ∨ i = .ecbep ∨ i = .ecbd)
    accept (encode i) s = { s with
      status  := Status.accepted
      opl     := i.opcode
      ecl     := check (encode i) s
      addrl   := if work then s.addr else 0
      nbl     := if work then blockCount s.len else 0
      workers := if work then assignRanges i.opcode s.platform (blockCount s.len) else noRanges s.platform } := by
  intro work
  have hop : (CmdWord.ofWord (encode i)).op = i.opcode := by rw [ofWord_encode]
  have hiff : (check (encode i) s = codeNone ∧ opcodeIs usesBuffer (CmdWord.ofWord (encode i)).op = true) ↔ work := by
    rw [hop, opcodeIs_opcode, usesBuffer_iff]
    exact Iff.rfl
  by_cases h : work
  · rw [accept_buffer (hiff.2 h).1 (hiff.2 h).2, hop, if_pos h, if_pos h, if_pos h, h.1]
    rfl
  · rw [accept_other (mt hiff.1 h), hop, if_neg h, if_neg h, if_neg h]
    rfl

/-- Settles O7: the host's step of a command is its write to CMD, accepted or ignored. -/
theorem everyCommandIsAcceptedOrIgnored : Obligations.EveryCommandIsAcceptedOrIgnored := by
  intro i s ht
  constructor
  · intro hb
    rw [exec_host ht, writeCmd_busy hb]
    rfl
  · intro hb work
    rw [exec_host ht, writeCmd_idle hb, accept_encode]
    rfl

/-! ### STATUS and CONFIG (R23, R25, R29) -/

/-- R23: no field of STATUS reaches above bit 8. -/
theorem statusWord_reserved (s : State) : (statusWord s).extractLsb' 9 23 = 0 := by
  refine BitVec.eq_of_getLsbD_eq fun i hi => ?_
  have hcode : s.status.errcode.getLsbD (9 + i - 4) = false := BitVec.getLsbD_of_ge _ _ (by omega)
  simp [statusWord, hcode]
  omega

theorem statusWord_errcode (s : State) : (statusWord s).extractLsb' 4 4 = s.status.errcode := by
  refine BitVec.eq_of_getLsbD_eq fun i hi => ?_
  have h : i = 0 ∨ i = 1 ∨ i = 2 ∨ i = 3 := by omega
  rcases h with rfl | rfl | rfl | rfl <;> simp [statusWord]

/-- R28: STATUS.KV is KV. -/
theorem statusWord_kv (s : State) : (statusWord s).getLsbD 3 = s.kv := by simp [statusWord]

/-- Settles O11: the two wide fields by their lemmas, the one-bit fields each at its own place. -/
theorem statusWordLayout : Obligations.StatusWordLayout := by
  intro s
  refine ⟨?busy, ?done, ?err, statusWord_kv s, statusWord_errcode s, ?wign, statusWord_reserved s⟩ <;>
    simp [statusWord]

/-- R29: the fields of CONFIG, whatever byte P is. -/
theorem configWord_fields (p : Platform) :
    (configWord p).extractLsb' 0 8 = BitVec.ofNat 8 p.numWorkers ∧ (configWord p).extractLsb' 8 8 = 0x10 ∧
    (configWord p).extractLsb' 16 8 = 0x0A ∧ (configWord p).extractLsb' 24 8 = 0x04 := by
  unfold configWord
  generalize BitVec.ofNat 8 p.numWorkers = x
  revert x
  decide

/-- R23: STATUS and CONFIG ignore a write. -/
theorem writeWindow_readOnly {o : Nat} (ho : o = 0x04 ∨ o = 0x08) (v : Word) (s : State) :
    writeWindow o v s = .next s := by
  rcases ho with rfl | rfl <;> rfl

/-- Settles O12: the fields by their lemma, offset 0x08 as CONFIG's own, and the parameters kept by every step. -/
theorem configIsConstant : Obligations.ConfigIsConstant := by
  refine ⟨fun p hp => ?_, fun s hp => ⟨busRead_reg hp .config, fun v => busWrite_reg hp .config v⟩, fun s t h => ?_⟩
  · obtain ⟨hnw, hb, hr, hk⟩ := configWord_fields p
    refine ⟨?_, hb, hr, hk, fun h4 => ?_⟩
    · rw [hnw, BitVec.toNat_ofNat]
      have := platform_wf_workers hp
      omega
    · unfold configWord
      rw [h4]
      decide
  · rw [step_platform h]

/-! ### Reads of the window (R21 to R33) -/

/-- R23: a read of a reserved offset returns 0. -/
theorem busRead_reserved {s : State} (hp : s.platform.wf = true) {o : Nat} (ho : o < 256) (h4 : o % 4 = 0)
    (hr : o = 0x14 ∨ o = 0x18 ∨ o = 0x1C ∨ 0x40 ≤ o) : busRead (s.platform.base + o) 32 s = .next (0, s) := by
  rw [busRead_offset hp ho h4, atOffset_reserved hr]
  rfl

/-- Settles O13: register by register, and the reserved offsets. -/
theorem windowReads : Obligations.WindowReads := by
  intro s hp read
  refine ⟨busRead_reg hp .cmd, busRead_reg hp .status, busRead_reg hp .config, busRead_reg hp .addr,
    busRead_reg hp .len, busRead_reg hp (.key 0), busRead_reg hp (.key 1), busRead_reg hp (.key 2),
    busRead_reg hp (.key 3), fun o h4 hr => ?_⟩
  exact busRead_reserved hp (by omega) h4 (by omega)

/-- R33, R175: when a BLK read is a free draw. -/
theorem blockRegisterBusy_iff (s : State) : blockRegisterBusy s = true ↔
    s.status.busy = true ∧ s.ecl ≠ 1 ∧ (s.opl = Instr.encb.opcode ∨ s.opl = Instr.decb.opcode) := by
  simp only [blockRegisterBusy, Bool.and_eq_true, bne_iff_ne, opcodeIs_usesBlockRegister]
  exact ⟨fun ⟨⟨hb, ho⟩, he⟩ => ⟨hb, he, ho⟩, fun ⟨hb, he, ho⟩ => ⟨⟨hb, ho⟩, he⟩⟩

/-- Settles O14: the two branches of a BLK read. -/
theorem blockReadsDuringBlockCommands : Obligations.BlockReadsDuringBlockCommands := by
  intro s j hp
  have hread : busRead (s.platform.base + (0x30 + 4 * j.val)) 32 s = .next (readReg (.blk j) s) :=
    busRead_reg hp (.blk j)
  constructor
  · intro hb he ho
    rw [hread, readReg, if_pos ((blockRegisterBusy_iff s).2 ⟨hb, he, ho⟩)]
    rfl
  · intro hn
    rw [hread, readReg, if_neg (mt (blockRegisterBusy_iff s).1 hn)]

/-! ### Writes to the window (R30 to R34) -/

/-- Settles O15: each operand register stores the word. -/
theorem acceptedRegisterWrites : Obligations.AcceptedRegisterWrites := by
  intro s v j hp hb
  have hstore : ∀ r, writeOperandReg r v s = storeReg r v s := fun r => by simp [writeOperandReg, hb]
  refine ⟨(busWrite_reg hp .addr v).trans ?_, (busWrite_reg hp .len v).trans ?_,
    (busWrite_reg hp (.key j) v).trans ?_, (busWrite_reg hp (.blk j) v).trans ?_⟩ <;>
  · rw [writeReg, hstore]
    rfl

/-- Settles O16: CMD ignores the write as a command, the operand registers as a word. -/
theorem writesWhileBusyAreIgnored : Obligations.WritesWhileBusyAreIgnored := by
  intro s r v hp ht hb hst hcf
  rw [busWrite_reg hp]
  rcases writeReg_cases r v s with ⟨-, h⟩ | ⟨rfl | rfl, -⟩ | ⟨-, h⟩ | ⟨hi, -⟩
  · rw [h, writeCommandReg_host ht, writeCmd_busy hb]
    rfl
  · exact absurd rfl hst
  · exact absurd rfl hcf
  · exact h
  · simp [hb] at hi

/-- Settles O17: a reserved offset names no register, and STATUS and CONFIG store nothing. -/
theorem reservedAndReadOnly : Obligations.ReservedAndReadOnly := by
  intro s o v hp ho h4
  refine ⟨fun hr => ⟨busRead_reserved hp ho h4 hr, ?_⟩, fun hr => ?_, statusWord_reserved s⟩
  · rw [busWrite_offset hp ho h4, writeWindow, atOffset_reserved hr]
  · rw [busWrite_offset hp ho h4, writeWindow_readOnly hr]

/-! ### Which accesses answer (R22) -/

/-- R22: every byte of the window is touched by an access at it. -/
theorem touchesWindow_of_mem {p : Platform} {addr : Nat} (hlo : p.base ≤ addr) (hhi : addr < p.base + 256)
    (width : Nat) : touchesWindow p addr width = true := by
  simp [touchesWindow]
  omega

/-- R22: a wrong access to the window is HostAccessFault. -/
theorem atWindow_fault {α : Type} {p : Platform} {addr width : Nat} (hlo : p.base ≤ addr)
    (hhi : addr < p.base + 256) (hw : width ≠ 32 ∨ addr % 4 ≠ 0) (k : Nat → Host.Outcome α Fault Refusal) :
    atWindow p addr width k = .fault (.hostAccess addr width) := by
  rw [atWindow, touchesWindow_of_mem hlo hhi, if_neg (by simp), if_pos hw]

/-- The host's write at any offset of the window answers. -/
theorem writeWindow_answers {s : State} (ht : s.turn = .host) (o : Nat) (v : Word) :
    ∃ t, writeWindow o v s = .next t := by
  unfold writeWindow
  split
  · next r _ =>
    rcases writeReg_cases r v s with ⟨-, h⟩ | ⟨-, h⟩ | ⟨-, h⟩ | ⟨-, h⟩
    · exact ⟨_, h.trans (writeCommandReg_host ht)⟩
    all_goals exact ⟨_, h⟩
  · exact ⟨s, rfl⟩

/-- Settles O18: a wrong access stops at the window's check; an aligned one is at an offset, where both accesses
answer. -/
theorem wrongWindowAccessFaults : Obligations.WrongWindowAccessFaults := by
  intro s addr width v hp hlo hhi
  constructor
  · exact fun hw => ⟨atWindow_fault hlo hhi hw _, atWindow_fault hlo hhi hw _⟩
  · rintro ⟨rfl, h4⟩ ht
    have hbase := platform_wf_base hp
    obtain ⟨o, rfl⟩ := Nat.exists_eq_add_of_le hlo
    rw [busRead_offset hp (by omega) (by omega), busWrite_offset hp (by omega) (by omega)]
    exact ⟨⟨_, rfl⟩, writeWindow_answers ht o v⟩

/-! ### What the window does not show (R32, R35) -/

/-- A read of a register with another key and schedule held. -/
theorem readWindow_hides_key (r : Option Reg) (s : State) (k : Quad) (w : Schedule) :
    readWindow r { s with key := k, rk := w } =
      ((readWindow r s).1, { (readWindow r s).2 with key := k, rk := w }) := by
  cases r with
  | none => rfl
  | some r =>
    cases r with
    | blk j =>
      have hb : blockRegisterBusy { s with key := k, rk := w } = blockRegisterBusy s := rfl
      simp only [readWindow, readReg, hb]
      split <;> rfl
    | _ => rfl

/-- Settles O19: whether an access answers depends on the platform alone, and what it answers on no key. -/
theorem windowHidesTheKey : Obligations.WindowHidesTheKey := by
  intro s s' addr width h
  generalize s'.key = k, s'.rk = w at h ⊢
  subst h
  simp only [busRead, atWindow]
  split
  · rfl
  · split
    · rfl
    · simp only [mapNext, readWindow_hides_key]

end Sys2Proof.Proofs

/-! SUPPORT. Rules of the whole machine: what the core's own steps and the reset do to memory, when WIGN changes, and the
state after reset. -/

namespace Sys2Proof.Proofs

open Sys2Proof Sys2Proof.Machine Sys2Proof.Safety

/-! ### The core's accesses to data memory (R42, R54, R171) -/

/-- R143, R155: the controller's step is the error entry, the work of a command, or nothing. -/
theorem controllerEvent_cases {s t : State} (hs : s.turn = .controller) (h : controllerEvent s = .next t) :
    t = s ∨ t = raiseCmdError s ∨ ∃ i, t = afterWork i s := by
  unfold controllerEvent at h
  split at h
  · next i hi =>
    rw [exec_controller hs] at h
    cases h
    rcases controllerStep_cases i (workOf i) s with ⟨-, -, heq⟩ | heq
    · rw [heq]
      exact .inr ((complete_eq (.inl ⟨i, hi, fun _ => rfl⟩)).imp And.right And.right)
    · exact .inl heq
  · next hi =>
    cases h
    split
    · exact .inr ((complete_eq (.inr ⟨hi, fun _ => rfl⟩)).imp And.right And.right)
    · exact .inl rfl

/-- R143: the controller stores nothing in data memory and leaves WIGN as it is. -/
theorem controllerEvent_frame {s t : State} (hs : s.turn = .controller) (h : controllerEvent s = .next t) :
    t.mem = s.mem ∧ t.status.wign = s.status.wign := by
  rcases controllerEvent_cases hs h with rfl | rfl | ⟨i, rfl⟩
  · exact ⟨rfl, rfl⟩
  · exact ⟨rfl, rfl⟩
  · exact ⟨by simp [workOf_frame], rfl⟩

/-- R133, R134: a worker's step is a block step of the command in progress, or nothing. -/
theorem workerEvent_cases {s t : State} {w : Nat} (hs : s.turn = .worker w) (h : workerEvent s = .next t) :
    t = s ∨ ∃ i k, workerReady i w s = some k ∧ t = afterBlock i w k s := by
  unfold workerEvent at h
  split at h
  · next i _ =>
    rw [exec_worker hs] at h
    rcases workerStep_cases i (blockFunctionOf i) w s with ⟨k, hk, -, he⟩ | ⟨k, -, -, he⟩ | ⟨-, he⟩
    · cases he.symm.trans h
      exact .inr ⟨i, k, hk, rfl⟩
    · cases he.symm.trans h
    · cases he.symm.trans h
      exact .inl rfl
  · cases h
    exact .inl rfl

/-- R127, R133: the bytes of the block a ready worker is at are in the buffer of the command in progress. -/
theorem inBuffer_of_workerReady {s : State} (hr : RangesLegal s) {i : Instr} {w : Nat} {k : Worker}
    (hk : workerReady i w s = some k) {a : Nat} (hlo : blockAddress s.addrl k.nx ≤ a)
    (hhi : a < blockAddress s.addrl k.nx + 16) : inBuffer s a = true := by
  obtain ⟨⟨hb, ho⟩, hu, -, hw, hlt⟩ := workerReady_iff.1 hk
  obtain ⟨h1, h2⟩ := block_in_buffer hr hw hlt
  have huse : bufferInUse s = true := by simp [bufferInUse, hb, ho, opcodeIs_opcode, hu]
  rw [inBuffer_iff, bufferBytes, if_pos huse]
  omega

/-- What a core event does to a byte outside the buffer in use: nothing. -/
theorem coreEvent_mem_outside {s t : State} (hr : RangesLegal s) {e : Event} (he : isCoreEvent e = true)
    (hs : s.turn = e.agent) (h : eventStep e s = .next t) {a : Nat} (ha : ¬inBuffer s a = true) :
    memRead t.mem a = memRead s.mem a := by
  cases e with
  | controller => rw [(controllerEvent_frame hs h).1]
  | worker w =>
    rcases workerEvent_cases hs h with rfl | ⟨i, k, hk, rfl⟩
    · rfl
    · refine memRead_writeBlock_outside _ ?_
      by_contra hc
      exact ha (inBuffer_of_workerReady hr hk (by omega) (by omega))
  | reset =>
    cases h
    rw [inBuffer_iff] at ha
    exact memRead_drawBytes_outside _ _ (by omega)
  | busWrite | busRead | memWrite | memRead | program => cases he

/-- Settles O49: a byte that changed is in the buffer in use, which RANGE admitted. -/
theorem coreChangesOnlyItsBuffer : Obligations.CoreChangesOnlyItsBuffer := by
  intro s t e es a hs he hi h hne
  rw [step_input hi] at h
  have hr : RangesLegal (s.atTurn es e.agent) := rangesLegal_congr hs.ranges rfl rfl rfl rfl rfl
  have hin : inBuffer s a = true := by
    by_contra hc
    exact hne (coreEvent_mem_outside hr he rfl h hc)
  exact ⟨hin, inBuffer_admitted hs.ranges hin⟩

/-! ### The turn after a step, and WIGN (R28) -/

theorem writeCmd_turn (v : Word) (s : State) : (writeCmd v s).turn = s.turn := by
  unfold writeCmd
  split
  · rfl
  · simp [accept_frame]

theorem busWrite_turn {a w : Nat} {v : Word} {s t : State} (hs : s.turn = .host)
    (h : busWrite a w v s = .next t) : t.turn = .host := by
  obtain ⟨-, -, -, h⟩ := atWindow_next h
  unfold writeWindow at h
  split at h
  · next r _ =>
    rcases writeReg_cases r v s with ⟨-, he⟩ | ⟨-, he⟩ | ⟨-, he⟩ | ⟨-, he⟩
    · cases (writeCommandReg_host hs).symm.trans (he.symm.trans h)
      exact (writeCmd_turn v s).trans hs
    all_goals cases he.symm.trans h
    · exact hs
    · exact hs
    · simpa [storeReg_frame] using hs
  · cases h
    exact hs

theorem readWindow_turn (r : Option Reg) (s : State) : (readWindow r s).2.turn = s.turn := by
  cases r with
  | none => rfl
  | some r =>
    cases r with
    | blk j =>
      simp only [readWindow, readReg]
      split <;> rfl
    | _ => rfl

theorem busRead_turn {a w : Nat} {s : State} {x : Word × State} (h : busRead a w s = .next x) :
    x.2.turn = s.turn := by
  obtain ⟨-, -, -, h⟩ := atWindow_next h
  cases h
  exact readWindow_turn _ s

theorem hostMemWrite_turn {a : Nat} {b : Byte} {s t : State} (h : hostMemWrite a b s = .next t) :
    t.turn = s.turn := by
  obtain ⟨-, -, h⟩ := atMemory_next h
  cases h
  rfl

/-- No operation of the host's program changes whose turn it is. -/
theorem hostOpStep_turn {op : HostOp} {s t : State} (hs : s.turn = .host) (h : hostOpStep op s = .next t) :
    t.turn = .host := by
  cases op with
  | wr r v =>
    obtain ⟨u, hu, rfl⟩ := mapNext_next h
    have hturn : u.turn = .host := busWrite_turn hs hu
    exact hturn
  | rd r x =>
    obtain ⟨u, hu, rfl⟩ := mapNext_next h
    exact (busRead_turn hu).trans hs
  | mwr a bs =>
    simp only [hostOpStep, hostMwr] at h
    split at h
    · obtain ⟨u, hu, rfl⟩ := mapNext_next h
      exact (hostMemWrite_turn hu).trans hs
    · cases h
      exact hs
  | mrd a n y =>
    simp only [hostOpStep, hostMrd] at h
    split at h
    · obtain ⟨u, -, rfl⟩ := mapNext_next h
      exact hs
    · cases h
      exact hs
  | bnz x bit l =>
    simp only [hostOpStep, hostBnz] at h
    split at h
    · split at h <;> cases h
      exact hs
    · cases h
      exact hs

theorem programStep_turn {s t : State} (hs : s.turn = .host) (h : programStep s = .next t) : t.turn = .host := by
  unfold programStep at h
  split at h
  · exact hostOpStep_turn hs h
  · cases h
    exact hs

/-- The turn after an event of the host is the host's. -/
theorem eventStep_host {e : Event} {s t : State} (he : e.agent = .host) (hs : s.turn = .host)
    (h : eventStep e s = .next t) : t.turn = .host := by
  cases e with
  | busWrite a w v => exact busWrite_turn hs h
  | busRead a w x =>
    obtain ⟨u, hu, rfl⟩ := mapNext_next h
    exact (busRead_turn hu).trans hs
  | memWrite a b => exact (hostMemWrite_turn h).trans hs
  | memRead a y =>
    obtain ⟨u, -, rfl⟩ := mapNext_next h
    exact hs
  | program => exact programStep_turn hs h
  | reset => cases h; rfl
  | controller | worker => cases he

/-- R28, R34: WIGN stands still in every step that is not the host's. -/
theorem eventStep_wign {e : Event} {s t : State} (hs : s.turn = e.agent) (h : eventStep e s = .next t) :
    t.turn = .host ∨ t.status.wign = s.status.wign := by
  cases e with
  | controller => exact .inr (controllerEvent_frame hs h).2
  | worker w =>
    rcases workerEvent_cases hs h with rfl | ⟨i, k, -, rfl⟩
    · exact .inr rfl
    · exact .inr rfl
  | busWrite | busRead | memWrite | memRead | program | reset => exact .inl (eventStep_host rfl hs h)

theorem step_wign {s t : State} (h : step s = .next t) : t.turn = .host ∨ t.status.wign = s.status.wign := by
  rcases step_cases s with ⟨e, es, -, he⟩ | ⟨e, -, -, he⟩ | ⟨-, -, he⟩
  · exact eventStep_wign (s := s.atTurn es e.agent) rfl (he.symm.trans h)
  · exact eventStep_wign (s := s.setTurn e.agent) rfl (he.symm.trans h)
  · cases he.symm.trans h
    exact .inr rfl

/-- What a step that is no reset may do to WIGN, whoever takes it. -/
def WignRule (s u : State) : Prop :=
  (s.status.wign = false → u.status.wign = true → s.status.busy = true) ∧
  (s.status.wign = true → u.status.wign = false → s.status.busy = false ∧ u.status.busy = true)

theorem wignRule_of_eq {s u : State} (h : u.status.wign = s.status.wign) : WignRule s u := by
  constructor <;> simp +contextual [h]

theorem step_wignRule {s t : State} (h : step s = .next t) (hr : s.inputs.head? ≠ some .reset) : WignRule s t := by
  apply step_elim h (P := WignRule s)
  case coreEq =>
    intro u t htu hu
    obtain ⟨-, hst, -⟩ := htu.fields
    simpa only [WignRule, hst] using hu
  case quiet => exact wignRule_of_eq rfl
  case ignored => exact fun hb => ⟨fun _ _ => hb, fun _ hu => absurd hu.symm Bool.false_ne_true⟩
  case accepted =>
    intro v hb
    obtain ⟨-, -, -, -, -, -, -, -, -, -, -, -, hst, -⟩ := accept_frame v s
    rw [WignRule, hst]
    exact ⟨fun _ hu => absurd hu Bool.false_ne_true, fun _ _ => ⟨hb, rfl⟩⟩
  case stored => exact fun r v _ => wignRule_of_eq (by rw [(storeReg_frame r v s).2.1])
  case memory => exact fun _ _ _ => wignRule_of_eq rfl
  case failed => exact fun _ _ => wignRule_of_eq rfl
  case worked => exact fun _ _ _ => wignRule_of_eq rfl
  case block => exact fun _ _ _ _ _ => wignRule_of_eq rfl
  case reset => exact fun es hi => absurd (by rw [hi]; rfl) hr

/-- Settles O60: the rule for any agent, and that only the host's steps move WIGN. -/
theorem wignChangesOnlyByRule : Obligations.WignChangesOnlyByRule := by
  refine ⟨statusWord_kv, fun s t h hr => ?_⟩
  obtain ⟨hset, hclear⟩ := step_wignRule h hr
  refine ⟨fun h0 h1 => ⟨hset h0 h1, ?_⟩, hclear⟩
  rcases step_wign h with ht | hw
  · exact ht
  · simp [hw, h0] at h1

/-! ### The state after reset (R44) -/

/-- Settles O51: nothing is reported, KV is 0, memory lists nothing and no range has a block. -/
theorem resetIsLegal : Obligations.ResetIsLegal where
  platform := by decide
  memory := ⟨reset_mem_wf, fun c hc => by cases hc⟩
  status := statusLegal_reset
  schedule := scheduleLegal_idle rfl fun hv => by cases hv
  ranges := rangesLegal_noRanges rfl rfl rfl

end Sys2Proof.Proofs

/-! SUPPORT. The host and data memory: when an access is ordinary, and what it then does. -/

namespace Sys2Proof.Proofs

open Sys2Proof Sys2Proof.Machine Sys2Proof.Safety

/-! ### Host accesses outside the buffer (R42, R60) -/

/-- R177: the buffer in use, told by the command in progress. -/
theorem inBuffer_iff_ecb (s : State) (a : Nat) :
    inBuffer s a = true ↔ s.status.busy = true ∧
      (s.opl = Instr.ecbe.opcode ∨ s.opl = Instr.ecbep.opcode ∨ s.opl = Instr.ecbd.opcode) ∧
      s.addrl.toNat ≤ a ∧ a < s.addrl.toNat + 16 * s.nbl.toNat := by
  simp only [inBuffer, Bool.and_eq_true, decide_eq_true_eq, opcodeIs_usesBuffer, Instr.opcode, and_assoc]

/-- R42, R60: an access to a byte that exists and is in no buffer in use passes the checks. -/
theorem atMemory_ordinary {α : Type} {a : Nat} {s : State} (ha : a < memorySize s.platform)
    (hb : ¬inBuffer s a = true) (k : Host.Outcome α Fault Refusal) : atMemory a s k = k := by
  rw [atMemory, if_neg (Nat.not_le.2 ha), if_neg hb]

/-- Settles O48: such an access passes the checks, and the write is `memWrite` on the memory alone. -/
theorem otherBytesAreOrdinaryMemory : Obligations.OtherBytesAreOrdinaryMemory := by
  intro s a b hm ha hout
  have hb : ¬inBuffer s a = true := fun h => hout ((inBuffer_iff_ecb s a).1 h)
  exact ⟨atMemory_ordinary ha hb _, s.setMem (memWrite s.mem a b), atMemory_ordinary ha hb _,
    memRead_memWrite_same a b hm, fun _ hx => memRead_memWrite_other hx b s.mem, rfl⟩

end Sys2Proof.Proofs

/-! SUPPORT. The encoding of the commands, what a word that spells none ends in, the frame of each command's step, and
the two lines of POLL. -/

namespace Sys2Proof.Proofs

open Sys2Proof Sys2Proof.Machine Sys2Proof.Safety

/-! ### Command words (R70 to R74) -/

/-- R72: a command's word is its opcode zero-extended. -/
theorem encode_eq_setWidth (i : Instr) : encode i = i.opcode.setWidth 32 := by
  simp [encode, CmdWord.toWord]

theorem decode_encode (i : Instr) : decode (encode i) = .command i := by
  simp [decode, decodeFields]

/-- R71: a word spells a command exactly when it is that command's word. -/
theorem decode_eq_command_iff {v : Word} {i : Instr} : decode v = .command i ↔ v = encode i := by
  constructor
  · intro h
    obtain ⟨hr, ho⟩ := fields_of_decode h
    calc v = (CmdWord.ofWord v).toWord := (toWord_ofWord v).symm
      _ = encode i := by rw [encode, opcode_of_ofOpcode ho, ← hr]
  · rintro rfl
    exact decode_encode i

/-- R71, R72: the opcodes that name no command. -/
theorem ofOpcode_eq_none_iff (op : Nibble) : Instr.ofOpcode op = none ↔ op = 7 ∨ 9 ≤ op := by
  revert op; decide

/-- R71, R74: the words that spell no command. -/
theorem decode_illegal_iff (v : Word) : (∃ why, decode v = .illegal why) ↔
    v.extractLsb' 4 28 ≠ 0 ∨ v.extractLsb' 0 4 = 7 ∨ 9 ≤ v.extractLsb' 0 4 := by
  have hrsv : (CmdWord.ofWord v).rsv = v.extractLsb' 4 28 := rfl
  have hop : (CmdWord.ofWord v).op = v.extractLsb' 0 4 := rfl
  rw [← ofOpcode_eq_none_iff, decode, decodeFields, hrsv, hop]
  by_cases hr : v.extractLsb' 4 28 = 0
  · cases ho : Instr.ofOpcode (v.extractLsb' 0 4) <;> simp [hr]
  · simp only [if_neg hr]
    exact ⟨fun _ => .inl hr, fun _ => ⟨_, rfl⟩⟩

/-- Settles O2: one direction is the encoder's, the other that a word is its fields. -/
theorem decodeIsExact : Obligations.DecodeIsExact := by
  intro v
  refine ⟨fun i => ?_, decode_illegal_iff v⟩
  rw [decode_eq_command_iff, encode_eq_setWidth]

/-- Settles O1: the eight words are the commands' own, the others evaluate. -/
theorem tableWordsDecode : Obligations.TableWordsDecode := by
  unfold Obligations.TableWordsDecode
  exact ⟨decode_encode .nop, decode_encode .keyexp, decode_encode .encb, decode_encode .decb, decode_encode .ecbe,
    decode_encode .ecbep, decode_encode .ecbd, decode_encode .zeroize, by decide, by decide, by decide, by decide,
    by decide⟩

/-! ### Words that spell no command (R74, R150) -/

/-- R157: ILLEGAL is checked first. -/
theorem check_illegal {v : Word} {why : IllegalWord} (h : decode v = .illegal why) (s : State) :
    check v s = codeIllegal := by
  simp [check, h]

/-- R142: an illegal word is accepted with no block and no range. -/
theorem accept_illegal {v : Word} {why : IllegalWord} (h : decode v = .illegal why) (s : State) :
    accept v s = (s.setStatus Status.accepted).setLatches (CmdWord.ofWord v).op codeIllegal 0 0
      (noRanges s.platform) := by
  have hc := check_illegal h s
  rw [accept_other fun hn => absurd (hc.symm.trans hn.1) (by decide), hc]

/-- R143, R155: with an error latched the controller's step is the error entry, whether OPL names a command or not. -/
theorem controllerEvent_error {s : State} (ht : s.turn = .controller) (hb : s.status.busy = true)
    (he : s.ecl ≠ codeNone) : controllerEvent s = .next (raiseCmdError s) := by
  have hen : controllerEnabled s = true := (controllerEnabled_iff s).2 ⟨hb, .inl he⟩
  unfold controllerEvent
  split
  · next i hi =>
    have hin : inProgress i s = true := by simp [inProgress, hb, opcode_of_ofOpcode hi]
    rw [exec_controller ht, controllerStep, hin, hen, complete_error he]
    rfl
  · rw [if_pos hen, complete_error he]

/-- Settles O3: acceptance latches ILLEGAL, and the controller's step is the error entry with it. -/
theorem illegalWordsEndIllegal : Obligations.IllegalWordsEndIllegal := by
  intro s v hp hb hv
  obtain ⟨why, hd⟩ := (decode_illegal_iff v).2 hv
  have hw : busWrite (s.platform.base + 0x00) 32 v s = .next (accept v s) := by
    rw [show 0x00 = Reg.offset .cmd from rfl, busWrite_reg hp, writeReg, writeCommandReg, hd]
    exact congrArg _ (writeCmd_idle hb)
  rw [accept_illegal hd] at hw
  exact ⟨_, _, hw, rfl, controllerEvent_error rfl rfl (show codeIllegal ≠ codeNone by decide), rfl, rfl⟩

/-! ### A command's step, by the agent that takes it (R73) -/

/-- The states a step of command i can lead to: the host's write of its word, the controller's error entry or completion,
a worker's block step, or the same state where an agent other than the host has no step. -/
inductive CommandStep (i : Instr) (s : State) : State → Prop
  | written : s.turn = .host → CommandStep i s (writeCmd (encode i) s)
  | stutter : s.turn ≠ .host → CommandStep i s s
  | failed : s.turn = .controller → CommandStep i s (raiseCmdError s)
  | worked : s.turn = .controller → CommandStep i s (afterWork i s)
  | block (w : Nat) (k : Worker) : s.turn = .worker w → workerReady i w s = some k →
      CommandStep i s (afterBlock i w k s)

/-- Everything a step of a command can do when it answers. -/
theorem exec_commandStep {i : Instr} {s t : State} (h : exec i s = .next t) : CommandStep i s t := by
  cases ht : s.turn with
  | host =>
    rw [exec_host ht] at h
    cases h
    exact .written ht
  | controller =>
    rw [exec_controller ht] at h
    cases h
    rcases controllerStep_cases i (workOf i) s with ⟨-, -, heq⟩ | heq <;> rw [heq]
    · by_cases he : s.ecl = codeNone
      · rw [complete_ok he, (workOf_frame i s).2.1]
        exact .worked ht
      · rw [complete_error he]
        exact .failed ht
    · exact .stutter (by simp [ht])
  | worker w =>
    rw [exec_worker ht] at h
    rcases workerStep_cases i (blockFunctionOf i) w s with ⟨k, hk, -, heq⟩ | ⟨k, -, -, heq⟩ | ⟨-, heq⟩
    · cases heq.symm.trans h
      exact .block w k ht hk
    · cases heq.symm.trans h
    · cases heq.symm.trans h
      exact .stutter (by simp [ht])

/-- R34, R142: what the host's write to CMD leaves alone, accepted or ignored. -/
theorem writeCmd_frame (v : Word) (s : State) :
    (writeCmd v s).platform = s.platform ∧ (writeCmd v s).kv = s.kv ∧ (writeCmd v s).addr = s.addr ∧
    (writeCmd v s).len = s.len ∧ (writeCmd v s).key = s.key ∧ (writeCmd v s).blk = s.blk ∧
    (writeCmd v s).rk = s.rk ∧ (writeCmd v s).mem = s.mem ∧ (writeCmd v s).inputs = s.inputs ∧
    (writeCmd v s).turn = s.turn ∧ (writeCmd v s).draws = s.draws ∧ (writeCmd v s).host = s.host := by
  cases hb : s.status.busy
  · rw [writeCmd_idle hb]
    simp [accept_frame]
  · rw [writeCmd_busy hb]
    simp [ignoreWrite]

/-- R92, R118, R119, R146: only ENCB and DECB change BLK, only ZEROIZE KEY, only KEYEXP and ZEROIZE RK and KV. -/
theorem workOf_registers (i : Instr) (s : State) :
    (i ≠ .encb → i ≠ .decb → (workOf i s).blk = s.blk) ∧ (i ≠ .zeroize → (workOf i s).key = s.key) ∧
    (i ≠ .keyexp → i ≠ .zeroize → (workOf i s).rk = s.rk ∧ (workOf i s).kv = s.kv) := by
  cases i <;> simp [workOf, nopWork, keyexpWork, encbWork, decbWork, zeroizeWork]

/-- R143: an ECB command's completion has no work of its own. -/
theorem workOf_buffer {i : Instr} (hi : i = .ecbe ∨ i = .ecbep ∨ i = .ecbd) (s : State) : workOf i s = s := by
  rcases hi with rfl | rfl | rfl <;> rfl

/-- Settles O31: the five commands use no buffer, so no worker has a step. -/
theorem registerCommandsFrame : Obligations.RegisterCommandsFrame := by
  intro i s t hi h
  have hu : usesBuffer i = false := by rcases hi with rfl | rfl | rfl | rfl | rfl <;> rfl
  cases exec_commandStep h with
  | written ht => simp [writeCmd_frame, ht]
  | stutter ht => simp
  | failed ht => simp [raiseCmdError, Status.failed, ht]
  | worked ht =>
    obtain ⟨hblk, hkey, hrk⟩ := workOf_registers i s
    simpa [workOf_frame, Status.completed, ht] using ⟨hblk, hkey, hrk⟩
  | block w k ht hk =>
    obtain ⟨-, hb, -⟩ := workerReady_some hk
    simp [hu] at hb

/-- Settles O32: the completion has no work, and a block step stores one block and advances one worker. -/
theorem bufferCommandsFrame : Obligations.BufferCommandsFrame := by
  intro i s t hi h
  cases exec_commandStep h with
  | written ht => simp [writeCmd_frame, ht]
  | stutter ht => simp +contextual
  | failed ht => simp [raiseCmdError, Status.failed, ht]
  | worked ht => simp [workOf_buffer hi, Status.completed, ht]
  | block w k ht hk =>
    refine ⟨rfl, rfl, rfl, rfl, rfl, rfl, rfl, rfl, rfl, rfl, rfl, by simp [ht], by simp, by simp [ht], ?_⟩
    intro w₀ hw₀
    cases ht.symm.trans hw₀
    obtain ⟨-, -, -, hw, -⟩ := workerReady_some hk
    obtain ⟨hlt, -⟩ := List.getElem?_eq_some_iff.1 hw
    refine ⟨rfl, List.length_set, fun w' hne => List.getElem?_set_ne hne.symm, by simp [hw], fun k₀ hk₀ => ?_⟩
    cases hw.symm.trans hk₀
    exact ⟨⟨_, List.getElem?_set_self hlt, rfl, rfl⟩, fun a ha => memRead_writeBlock_outside _ ha⟩

/-! ### POLL (R76, R77) -/

theorem statusWord_busy (s : State) : (statusWord s).getLsbD 0 = s.status.busy := by simp [statusWord]

/-- R76: a read of STATUS stores it in the variable and changes the host alone. -/
theorem hostRd_status {s : State} (hp : s.platform.wf = true) (x : Nat) :
    hostRd .status x s = .next (s.setHost (s.host.setWord x (statusWord s)).advance) := by
  rw [hostRd, busRead_reg hp]
  rfl

/-- R58, R76: the host's action is the operation of its line. -/
theorem programStep_line {s : State} {line : HostLine} (h : s.host.prog[s.host.pc]? = some line) :
    programStep s = hostOpStep line.op s := by
  simp [programStep, h]

/-- R76: a branch goes to its label's line or to the next, and changes the host alone. -/
theorem hostBnz_labelled {s : State} {l pc : Nat} (hl : labelLine s.host.prog l = some pc) (x bit : Nat) :
    hostBnz x bit l s =
      .next (s.setHost (s.host.goto (if (s.host.word x).getLsbD bit then pc else s.host.pc + 1))) := by
  unfold hostBnz
  split
  · rw [hl]
  · rfl

/-- Settles O50: the read, then the branch on what it stored. -/
theorem pollWaitsForCompletion : Obligations.PollWaitsForCompletion := by
  intro s l x hp hvars hrd hbnz hl
  let t := s.setHost (s.host.setWord x (statusWord s)).advance
  have hread : programStep s = .next t := (programStep_line hrd).trans (hostRd_status hp x)
  have hbranch : programStep t = _ :=
    (programStep_line (s := t) hbnz).trans (hostBnz_labelled (s := t) hl x 0)
  have hword : t.host.word x = statusWord s := varGet_varSet hvars
  rw [hword, statusWord_busy] at hbranch
  exact ⟨t, _, hread, hbranch, rfl, hword, rfl, rfl⟩

end Sys2Proof.Proofs

/-! SUPPORT. Key expansion: the bytes of RotWord and SubWord, the words of the expanded key, and KEYEXP's completion. -/

namespace Sys2Proof.Proofs

open Sys2Proof Sys2Proof.Machine Sys2Proof.Safety

/-! ### Words by their bytes (R12, R86, R87) -/

/-- Two words with the same bytes are the same word. -/
theorem word_ext {v w : Word} (h : ∀ r, byteOf v r = byteOf w r) : v = w := by
  rw [← wordOf_byteOf v, ← wordOf_byteOf w, h 0, h 1, h 2, h 3]

theorem toNat_append_byte {n : Nat} (u : BitVec n) (b : Byte) : (u ++ b).toNat = 2 ^ 8 * u.toNat + b.toNat := by
  rw [BitVec.toNat_append, ← Nat.shiftLeft_add_eq_or_of_lt b.isLt, Nat.shiftLeft_eq, mul_comm]

/-- R12: the shifted bytes do not overlap, so a word is its bytes in a row. -/
theorem wordOf_eq_append (a b c d : Byte) : wordOf a b c d = a ++ b ++ c ++ d := by
  refine BitVec.eq_of_getLsbD_eq fun i hi => ?_
  simp only [wordOf, BitVec.getLsbD_append, BitVec.getLsbD_or, BitVec.getLsbD_shiftLeft, BitVec.getLsbD_setWidth]
  grind

/-- R12: the four bytes are the digits of the word in base 256, the first the most significant. -/
theorem toNat_wordOf (a b c d : Byte) :
    (wordOf a b c d).toNat = 2 ^ 24 * a.toNat + 2 ^ 16 * b.toNat + 2 ^ 8 * c.toNat + d.toNat := by
  rw [wordOf_eq_append]
  simp only [toNat_append_byte]
  ring

/-- R86: the bytes move up by one place, the first to the last. -/
@[simp] theorem byteOf_rotWord (w : Word) (r : Fin 4) : byteOf (rotWord w) r = byteOf w (r + 1) := by
  ext i hi
  simp only [byteOf, rotWord, BitVec.getElem_extractLsb', BitVec.getLsbD_rotateLeft]
  fin_cases r <;> grind

/-- R87: each byte through the S-box, in its own place. -/
@[simp] theorem byteOf_subWord (w : Word) (r : Fin 4) : byteOf (subWord w) r = sbox (byteOf w r) :=
  byteOf_wordOf_row (fun r => sbox (byteOf w r)) r

/-- Settles O39: byte r of either word is the S-box of byte r + 1. -/
theorem subWordCommutesWithRotWord : Obligations.SubWordCommutesWithRotWord :=
  fun t => word_ext fun r => by simp only [byteOf_subWord, byteOf_rotWord]

theorem rotWord_wordOf (a b c d : Byte) : rotWord (wordOf a b c d) = wordOf b c d a := by
  refine word_ext fun r => ?_
  rw [byteOf_rotWord]
  fin_cases r <;> simp [byteOf_wordOf]

theorem subWord_wordOf (a b c d : Byte) :
    subWord (wordOf a b c d) = wordOf (sbox a) (sbox b) (sbox c) (sbox d) := by
  simp only [subWord, byteOf_wordOf]

/-! ### Rcon (R88) -/

theorem roundConstant_pred {j : Nat} (hj : 1 < j) : roundConstant (j - 1) = xtime (roundConstant (j - 1 - 1)) := by
  obtain ⟨n, rfl⟩ : ∃ n, j = n + 2 := ⟨j - 2, by omega⟩
  rfl

/-! ### The words of the expanded key (R85, R89) -/

/-- R89: the pass for i = n + 4 writes word n + 4 from words n and n + 3. -/
theorem expansionStep_written (w : Schedule) (n : Fin 40) :
    (expansionStep w n)[n.val + 4] = w[n.val] ^^^ expansionTemp (n.val + 4) w[n.val + 3] := by
  simp [expansionStep]

/-- R89: passes that do not write word j leave it. -/
theorem expansionSteps_keep {j : Nat} (hj : j < 44) (ns : List (Fin 40)) (w : Schedule)
    (h : ∀ n ∈ ns, n.val + 4 ≠ j) : (ns.foldl expansionStep w)[j] = w[j] := by
  induction ns generalizing w with
  | nil => rfl
  | cons n ns ih =>
    obtain ⟨hn, hns⟩ := List.forall_mem_cons.1 h
    calc (ns.foldl expansionStep (expansionStep w n))[j]
      _ = (expansionStep w n)[j] := ih _ hns
      _ = w[j] := Vector.getElem_set_ne _ _ hn

/-- R85: the first four words start as the words of the key. -/
theorem expansionStart_getElem (k : Key) (j : Fin 4) : (expansionStart k)[j.val] = columnWord k j := by
  fin_cases j <;> rfl

/-- R85: and no pass writes them. -/
theorem keyExpansion_key (k : Key) (j : Fin 4) : (keyExpansion k)[j.val] = columnWord k j := by
  rw [keyExpansion, expansionSteps_keep _ _ _ fun n _ => by omega]
  exact expansionStart_getElem k j

/-- The loop at the pass for i = n + 4: the passes before it lead to some schedule, and every pass after it is for a
larger i. -/
theorem keyExpansion_split (k : Key) (n : Fin 40) : ∃ (w : Schedule) (ns : List (Fin 40)),
    keyExpansion k = ns.foldl expansionStep (expansionStep w n) ∧ ∀ m ∈ ns, n < m := by
  obtain ⟨before, after, hsplit⟩ := List.append_of_mem (List.mem_finRange n)
  have hsorted := List.pairwise_lt_finRange 40
  rw [hsplit] at hsorted
  obtain ⟨-, hafter, -⟩ := List.pairwise_append.1 hsorted
  exact ⟨before.foldl expansionStep (expansionStart k), after, by rw [keyExpansion, hsplit, List.foldl_append]; rfl,
    (List.pairwise_cons.1 hafter).1⟩

/-- R89: the recurrence. The words that a pass reads and the one it writes are final after it. -/
theorem keyExpansion_recurrence (k : Key) (n : Fin 40) :
    (keyExpansion k)[n.val + 4] =
      (keyExpansion k)[n.val] ^^^ expansionTemp (n.val + 4) (keyExpansion k)[n.val + 3] := by
  obtain ⟨w, ns, hk, hns⟩ := keyExpansion_split k n
  have hlater : ∀ {j} (hj : j < 44), j ≤ n.val + 4 → (keyExpansion k)[j] = (expansionStep w n)[j] := by
    intro j hj hle
    rw [hk, expansionSteps_keep hj _ _ fun m hm => by have := hns m hm; omega]
  have hread : ∀ {j} (hj : j < 44), j < n.val + 4 → (keyExpansion k)[j] = w[j] := fun hj hlt =>
    (hlater hj hlt.le).trans (expansionSteps_keep hj [n] w (by simp; omega))
  rw [hlater _ le_rfl, hread _ (by omega), hread _ (by omega), expansionStep_written]

/-- Settles O38: the packing of words, Rcon's recursion and its ten values, and the loop's recurrence. -/
theorem keyExpansionRecurrence : Obligations.KeyExpansionRecurrence := by
  refine ⟨fun a b c d => ⟨toNat_wordOf a b c d, rotWord_wordOf a b c d, subWord_wordOf a b c d⟩, fun _ => rfl,
    ⟨fun j => roundConstant (j - 1), rfl, fun j hj _ => roundConstant_pred hj, fun _ _ _ => rfl⟩, by decide,
    fun k => ⟨fun i => ?_, keyExpansion_recurrence k⟩⟩
  rw [keyExpansion_key]
  fin_cases i <;> rfl

/-! ### KEYEXP (R92) -/

/-- Settles O22: KEYEXP uses no buffer, so its completion waits for no worker. -/
theorem keyexpCompletes : Obligations.KeyexpCompletes :=
  fun _ ht hb ho he => exec_completes (i := .keyexp) ht hb ho he (.inl rfl)

end Sys2Proof.Proofs

/-! SUPPORT. The field product and its inverse, the substitution tables, and the round transforms cell by cell. -/

namespace Sys2Proof.Proofs

open Sys2Proof Sys2Proof.Machine Sys2Proof.Safety

/-! ### The field product (R95, R96, R97)

A byte is a sum of powers of xtime at 1 (`byte_induction`), and gmul is additive and commutes with xtime in its first
operand, so each law needs only its case at 1. -/

@[simp] theorem xtime_zero : xtime 0x00#8 = 0x00#8 := rfl

@[simp] theorem xtime_xor (a b : Byte) : xtime (a ^^^ b) = xtime a ^^^ xtime b := by
  have hcarry : (if (a ^^^ b).getLsbD 7 then 0x1b else 0x00 : Byte) =
      (if a.getLsbD 7 then 0x1b else 0x00) ^^^ (if b.getLsbD 7 then 0x1b else 0x00) := by
    rw [BitVec.getLsbD_xor]
    cases a.getLsbD 7 <;> cases b.getLsbD 7 <;> rfl
  simp only [xtime, hcarry, BitVec.shiftLeft_xor_distrib]
  ac_rfl

@[simp] theorem gmulBits_zero_right (n : Nat) (a : Byte) : gmulBits n a 0x00#8 = 0x00#8 := by
  induction n generalizing a with
  | zero => rfl
  | succ n ih => simp [gmulBits, ih]

theorem gmulBits_xor_left (n : Nat) (a a' b : Byte) :
    gmulBits n (a ^^^ a') b = gmulBits n a b ^^^ gmulBits n a' b := by
  induction n generalizing a a' b with
  | zero => simp [gmulBits]
  | succ n ih =>
    simp only [gmulBits, xtime_xor, ih]
    split
    · ac_rfl
    · simp

theorem gmulBits_xtime_left (n : Nat) (a b : Byte) : gmulBits n (xtime a) b = xtime (gmulBits n a b) := by
  induction n generalizing a b with
  | zero => simp [gmulBits]
  | succ n ih =>
    simp only [gmulBits, xtime_xor, ih]
    split <;> simp

@[simp] theorem gmul_xor_left (a a' b : Byte) : gmul (a ^^^ a') b = gmul a b ^^^ gmul a' b :=
  gmulBits_xor_left 8 a a' b

@[simp] theorem gmul_xtime_left (a b : Byte) : gmul (xtime a) b = xtime (gmul a b) := gmulBits_xtime_left 8 a b

@[simp] theorem one_gmul (a : Byte) : gmul 0x01#8 a = a := by
  revert a; decide +kernel

@[simp] theorem gmul_one (a : Byte) : gmul a 0x01#8 = a := by
  simp [gmul, gmulBits]

/-- A product is a sum of xtime powers of its first operand, so it keeps what sums and xtime keep. -/
theorem gmulBits_closed {P : Byte → Prop} (zero : P 0x00) (xor : ∀ a b, P a → P b → P (a ^^^ b))
    (xtime : ∀ a, P a → P (xtime a)) (n : Nat) (a b : Byte) (ha : P a) : P (gmulBits n a b) := by
  induction n generalizing a b with
  | zero => exact zero
  | succ n ih =>
    refine xor _ _ ?_ (ih _ _ (xtime a ha))
    split
    · exact ha
    · exact zero

/-- What holds of 1, of sums and of the product with x holds of every byte: gmul 1 a spells a in powers of x. -/
theorem byte_induction {P : Byte → Prop} (one : P 0x01) (xor : ∀ a b, P a → P b → P (a ^^^ b))
    (xtime : ∀ a, P a → P (xtime a)) (a : Byte) : P a := by
  have zero : P 0x00 := xor_self (0x01 : Byte) ▸ xor _ _ one one
  exact one_gmul a ▸ gmulBits_closed zero xor xtime 8 0x01 a one

theorem gmul_xtime_right (a b : Byte) : gmul a (xtime b) = xtime (gmul a b) := by
  induction a using byte_induction with
  | one => simp
  | xor a a' h h' => simp [h, h']
  | xtime a h => simp [h]

theorem gmul_xor_right (a b c : Byte) : gmul a (b ^^^ c) = gmul a b ^^^ gmul a c := by
  induction a using byte_induction with
  | one => simp
  | xor a a' h h' => simp only [gmul_xor_left, h, h']; ac_rfl
  | xtime a h => simp [h]

theorem gmul_comm (a b : Byte) : gmul a b = gmul b a := by
  induction a using byte_induction with
  | one => simp
  | xor a a' h h' => rw [gmul_xor_left, gmul_xor_right, h, h']
  | xtime a h => rw [gmul_xtime_left, gmul_xtime_right, h]

theorem gmul_assoc (a b c : Byte) : gmul (gmul a b) c = gmul a (gmul b c) := by
  induction a using byte_induction with
  | one => simp
  | xor a a' h h' => simp only [gmul_xor_left, h, h']
  | xtime a h => simp only [gmul_xtime_left, h]

@[simp] theorem gmul_zero (a : Byte) : gmul a 0x00#8 = 0x00#8 := gmulBits_zero_right 8 a

@[simp] theorem zero_gmul (a : Byte) : gmul 0x00#8 a = 0x00#8 := by rw [gmul_comm, gmul_zero]

theorem gmul_two (a : Byte) : gmul a 0x02 = xtime a :=
  calc gmul a 0x02
    _ = xtime (gmul a 0x01#8) := gmul_xtime_right a 0x01#8
    _ = xtime a := by rw [gmul_one]

/-- Settles O33: the laws by the induction on a byte, the examples by evaluation. -/
theorem fieldProductLaws : Obligations.FieldProductLaws :=
  ⟨gmul_xtime_right, gmul_two, gmul_comm, gmul_assoc, gmul_xor_right, gmul_one, zero_gmul, by decide, by decide,
    by decide⟩

/-! ### The substitution tables (R98 to R101) -/

/-- The inverse of R99's affine map. -/
def invAffine (b : Byte) : Byte := b.rotateLeft 1 ^^^ b.rotateLeft 3 ^^^ b.rotateLeft 6 ^^^ 0x05

theorem affine_invAffine (b : Byte) : affine (invAffine b) = b := by
  revert b; decide +kernel

/-- R99, read backwards: the table's entry at a, out of the affine map, is an inverse of a. -/
theorem gmul_invAffine_sbox (a : Byte) (ha : a ≠ 0) : gmul a (invAffine (sbox a)) = 0x01#8 := by
  revert a; decide +kernel

theorem gmul_right_cancel_of_inverse {a b c : Byte} (hb : gmul a b = 0x01#8) (hc : gmul a c = 0x01#8) : b = c :=
  calc b
    _ = gmul (gmul a c) b := by rw [hc, one_gmul]
    _ = gmul c (gmul a b) := by rw [gmul_comm a c, gmul_assoc]
    _ = c := by rw [hb, gmul_one]

theorem mem_allBytes (a : Byte) : a ∈ allBytes :=
  List.mem_map.2 ⟨a.toNat, List.mem_range.2 a.isLt, BitVec.ofNat_toNat 8 a⟩

/-- R98: the search finds an inverse where there is one, and there is at most one. -/
theorem ginv_eq_of_gmul_eq_one {a b : Byte} (h : gmul a b = 0x01#8) : ginv a = b := by
  cases hf : allBytes.find? (fun b => gmul a b == 0x01) with
  | none => exact absurd h (by simpa using List.find?_eq_none.1 hf b (mem_allBytes b))
  | some c =>
    have hc : gmul a c = 0x01#8 := by simpa using List.find?_some hf
    rw [ginv, hf, Option.getD_some, gmul_right_cancel_of_inverse hc h]

theorem ginv_zero : ginv 0x00 = 0x00 := by
  have hf : allBytes.find? (fun b => gmul 0x00 b == 0x01) = none := List.find?_eq_none.2 (by simp)
  rw [ginv, hf, Option.getD_none]

theorem ginv_eq_invAffine_sbox (a : Byte) : ginv a = invAffine (sbox a) := by
  by_cases ha : a = 0
  · subst ha; exact ginv_zero
  · exact ginv_eq_of_gmul_eq_one (gmul_invAffine_sbox a ha)

/-- R98: the inverse is one. -/
theorem gmul_ginv (a : Byte) (ha : a ≠ 0) : gmul a (ginv a) = 0x01 := by
  rw [ginv_eq_invAffine_sbox]
  exact gmul_invAffine_sbox a ha

/-- R99: the table is the affine map of the inverse. -/
theorem sbox_eq_affine_ginv (a : Byte) : sbox a = affine (ginv a) := by
  rw [ginv_eq_invAffine_sbox, affine_invAffine]

/-- R101. -/
@[simp] theorem invSbox_sbox (a : Byte) : invSbox (sbox a) = a := by
  revert a; decide +kernel

theorem sbox_bijective : Function.Bijective sbox :=
  Finite.injective_iff_bijective.1 (Function.LeftInverse.injective invSbox_sbox)

@[simp] theorem sbox_invSbox (a : Byte) : sbox (invSbox a) = a :=
  Function.LeftInverse.rightInverse_of_surjective invSbox_sbox sbox_bijective.surjective a

/-- R99: no fixed point and no opposite fixed point. -/
theorem sbox_ne (a : Byte) : sbox a ≠ a ∧ sbox a ≠ a ^^^ 0xff := by
  revert a; decide +kernel

/-- Settles O34: the inverse from the table by the affine map's own inverse, the permutation from its inverse table. -/
theorem substitutionTables : Obligations.SubstitutionTables :=
  ⟨gmul_ginv, ginv_zero, sbox_eq_affine_ginv, sbox_bijective, fun a => (sbox_ne a).1, fun a => (sbox_ne a).2,
    invSbox_sbox, sbox_invSbox⟩

/-! ### The transforms cell by cell (R102 to R108) -/

@[simp] theorem cell_subBytes (s : Block) (r c : Fin 4) : cell (subBytes s) r c = sbox (cell s r c) :=
  cell_tabulate _ r c

@[simp] theorem cell_invSubBytes (s : Block) (r c : Fin 4) : cell (invSubBytes s) r c = invSbox (cell s r c) :=
  cell_tabulate _ r c

@[simp] theorem cell_shiftRows (s : Block) (r c : Fin 4) : cell (shiftRows s) r c = cell s r (c + r) :=
  cell_tabulate _ r c

@[simp] theorem cell_invShiftRows (s : Block) (r c : Fin 4) : cell (invShiftRows s) r c = cell s r (c - r) :=
  cell_tabulate _ r c

@[simp] theorem cell_mixColumns (s : Block) (r c : Fin 4) :
    cell (mixColumns s) r c = mixRow r (cell s 0 c) (cell s 1 c) (cell s 2 c) (cell s 3 c) :=
  cell_tabulate _ r c

@[simp] theorem cell_invMixColumns (s : Block) (r c : Fin 4) :
    cell (invMixColumns s) r c = invMixRow r (cell s 0 c) (cell s 1 c) (cell s 2 c) (cell s 3 c) :=
  cell_tabulate _ r c

@[simp] theorem cell_addRoundKey (s : Block) (w : Schedule) (n : Fin 11) (r c : Fin 4) :
    cell (addRoundKey s w n) r c = cell s r c ^^^ byteOf (roundKeyWord w n c) r :=
  cell_tabulate _ r c

/-- R13: byte i in buffer order is in row i mod 4, column i div 4. -/
theorem getElem_eq_cell (s : Block) (i : Fin 16) : s[i] = cell s ⟨i.val % 4, by omega⟩ ⟨i.val / 4, by omega⟩ := by
  simp only [cell, Nat.mod_add_div]
  rfl

/-- R13: the four bytes of column c in buffer order. -/
theorem getElem_column (s : Block) (c : Fin 4) :
    s[4 * c.val] = cell s 0 c ∧ s[4 * c.val + 1] = cell s 1 c ∧ s[4 * c.val + 2] = cell s 2 c ∧
    s[4 * c.val + 3] = cell s 3 c := by
  simp [cell, add_comm]

/-- Settles O35: each transform cell by cell, and where the cell stands in the buffer. -/
theorem transformsInBufferOrder : Obligations.TransformsInBufferOrder := by
  refine ⟨fun s w n i => ?_, fun s c => ?_⟩
  · let r : Fin 4 := ⟨i.val % 4, by omega⟩
    let c : Fin 4 := ⟨i.val / 4, by omega⟩
    have hshift : cell (invShiftRows s) r (c + r) = cell s r c := by
      rw [cell_invShiftRows, add_sub_cancel_right]
    simp only [getElem_eq_cell]
    exact ⟨cell_subBytes s r c, cell_invSubBytes s r c, cell_shiftRows s r c, hshift, cell_addRoundKey s w n r c⟩
  · simp only [getElem_column, cell_mixColumns, cell_invMixColumns]
    exact ⟨rfl, rfl, rfl, rfl, rfl, rfl, rfl, rfl⟩

/-! ### Column mixing as a product with a circulant matrix (R106, R107) -/

/-- Row r of the product of a column f with the circulant matrix whose first row is k. -/
def circulant (k f : Fin 4 → Byte) (r : Fin 4) : Byte :=
  gmul (k 0) (f r) ^^^ gmul (k 1) (f (r + 1)) ^^^ gmul (k 2) (f (r + 2)) ^^^ gmul (k 3) (f (r + 3))

/-- The first row of the product of two circulant matrices, from their first rows: entry j sums the products of the
entries whose places add up to j modulo 4. -/
def circulantProduct (k m : Fin 4 → Byte) (j : Fin 4) : Byte :=
  gmul (k 0) (m j) ^^^ gmul (k 1) (m (j + 3)) ^^^ gmul (k 2) (m (j + 2)) ^^^ gmul (k 3) (m (j + 1))

/-- R106: the first row of MixColumns' matrix. -/
def mixFirstRow : Fin 4 → Byte := ![0x02, 0x03, 0x01, 0x01]

/-- R107: the first row of InvMixColumns' matrix. -/
def invMixFirstRow : Fin 4 → Byte := ![0x0e, 0x0b, 0x0d, 0x09]

theorem mixRow_eq_circulant (f : Fin 4 → Byte) (r : Fin 4) :
    mixRow r (f 0) (f 1) (f 2) (f 3) = circulant mixFirstRow f r := by
  fin_cases r <;> simp [mixRow, circulant, mixFirstRow] <;> ac_rfl

theorem invMixRow_eq_circulant (f : Fin 4 → Byte) (r : Fin 4) :
    invMixRow r (f 0) (f 1) (f 2) (f 3) = circulant invMixFirstRow f r := by
  fin_cases r <;> simp [invMixRow, circulant, invMixFirstRow] <;> ac_rfl

theorem circulant_circulant (k m f : Fin 4 → Byte) :
    circulant k (circulant m f) = circulant (circulantProduct k m) f := by
  funext r
  simp only [circulant, circulantProduct, gmul_xor_left, gmul_xor_right, gmul_assoc, add_assoc, add_zero,
    Fin.isValue, Fin.reduceAdd]
  ac_rfl

/-- Circulant matrices whose product is the identity matrix undo each other. -/
theorem circulant_inverse {k m : Fin 4 → Byte} (h : circulantProduct k m = ![0x01, 0x00, 0x00, 0x00])
    (f : Fin 4 → Byte) : circulant k (circulant m f) = f := by
  funext r
  rw [circulant_circulant, h]
  simp [circulant]

theorem cell_mixColumns_circulant (s : Block) (c : Fin 4) :
    (cell (mixColumns s) · c) = circulant mixFirstRow (cell s · c) :=
  funext fun r => (cell_mixColumns s r c).trans (mixRow_eq_circulant (cell s · c) r)

theorem cell_invMixColumns_circulant (s : Block) (c : Fin 4) :
    (cell (invMixColumns s) · c) = circulant invMixFirstRow (cell s · c) :=
  funext fun r => (cell_invMixColumns s r c).trans (invMixRow_eq_circulant (cell s · c) r)

/-! ### What undoes and what commutes (R109, R110) -/

theorem invSubBytes_subBytes (s : Block) : invSubBytes (subBytes s) = s :=
  block_ext fun r c => by rw [cell_invSubBytes, cell_subBytes, invSbox_sbox]

theorem subBytes_invSubBytes (s : Block) : subBytes (invSubBytes s) = s :=
  block_ext fun r c => by rw [cell_subBytes, cell_invSubBytes, sbox_invSbox]

theorem invShiftRows_shiftRows (s : Block) : invShiftRows (shiftRows s) = s :=
  block_ext fun r c => by rw [cell_invShiftRows, cell_shiftRows, sub_add_cancel]

theorem shiftRows_invShiftRows (s : Block) : shiftRows (invShiftRows s) = s :=
  block_ext fun r c => by rw [cell_shiftRows, cell_invShiftRows, add_sub_cancel_right]

/-- Two blocks with the same columns are the same block. -/
theorem block_ext_columns {s t : Block} (h : ∀ c, (cell s · c) = (cell t · c)) : s = t :=
  block_ext fun r c => congrFun (h c) r

theorem invMixColumns_mixColumns (s : Block) : invMixColumns (mixColumns s) = s := by
  refine block_ext_columns fun c => ?_
  rw [cell_invMixColumns_circulant, cell_mixColumns_circulant, circulant_inverse (by decide)]

theorem mixColumns_invMixColumns (s : Block) : mixColumns (invMixColumns s) = s := by
  refine block_ext_columns fun c => ?_
  rw [cell_mixColumns_circulant, cell_invMixColumns_circulant, circulant_inverse (by decide)]

theorem addRoundKey_addRoundKey (s : Block) (w : Schedule) (n : Fin 11) :
    addRoundKey (addRoundKey s w n) w n = s :=
  block_ext fun r c => by rw [cell_addRoundKey, cell_addRoundKey, xor_cancel_right]

/-- Settles O36: cell by cell, and column by column where the product of the two matrices is the identity matrix. -/
theorem inversesUndoTransforms : Obligations.InversesUndoTransforms :=
  fun s w n => ⟨invSubBytes_subBytes s, subBytes_invSubBytes s, invShiftRows_shiftRows s, shiftRows_invShiftRows s,
    invMixColumns_mixColumns s, mixColumns_invMixColumns s, addRoundKey_addRoundKey s w n⟩

theorem shiftRows_subBytes (s : Block) : shiftRows (subBytes s) = subBytes (shiftRows s) :=
  block_ext fun r c => by rw [cell_shiftRows, cell_subBytes, cell_subBytes, cell_shiftRows]

theorem invShiftRows_invSubBytes (s : Block) : invShiftRows (invSubBytes s) = invSubBytes (invShiftRows s) :=
  block_ext fun r c => by rw [cell_invShiftRows, cell_invSubBytes, cell_invSubBytes, cell_invShiftRows]

/-- The schedule whose round keys all have 0x01 in the first byte of each column and 0x00 elsewhere. -/
def firstRowSchedule : Schedule := Vector.replicate 44 0x01000000

/-- Settles O37: cell by cell; the mixing of the zero state, whose mixed key is not the key. -/
theorem substitutionCommutesWithShift : Obligations.SubstitutionCommutesWithShift :=
  ⟨shiftRows_subBytes, invShiftRows_invSubBytes, ⟨Vector.replicate 16 0, firstRowSchedule, 0, by decide⟩,
    ⟨Vector.replicate 16 0, firstRowSchedule, 0, by decide⟩⟩

end Sys2Proof.Proofs

/-! SUPPORT. The cipher functions: their rounds, that they undo each other, and the block commands' completions. -/

namespace Sys2Proof.Proofs

open Sys2Proof Sys2Proof.Machine

/-! ### The rounds (R115, R116) -/

/-- R115: the state after round r of encryption, the state after the initial key mixing for r = 0. -/
def encryptionState (w : Schedule) (b : Block) (r : Nat) : Block :=
  (fullRounds.take r).foldl (fullRound w) (addRoundKey b w 0)

/-- R116: the state of decryption once the rounds above r are undone. -/
def decryptionState (w : Schedule) (c : Block) (r : Nat) : Block :=
  (fullRounds.drop r).foldr (fun n s => invFullRound w s n) (addRoundKey c w 10)

/-- R115: the rounds ascend from 1. -/
theorem fullRounds_getElem (r : Fin 9) : fullRounds[r.val]'r.isLt = ⟨r.val + 1, by omega⟩ := by
  revert r; decide

theorem encryptionState_succ (w : Schedule) (b : Block) (r : Fin 9) :
    encryptionState w b (r.val + 1) = fullRound w (encryptionState w b r.val) ⟨r.val + 1, by omega⟩ := by
  rw [encryptionState, List.take_succ_eq_append_getElem r.isLt, List.foldl_concat, fullRounds_getElem]
  rfl

theorem decryptionState_of_succ (w : Schedule) (c : Block) (r : Fin 9) :
    decryptionState w c r.val = invFullRound w (decryptionState w c (r.val + 1)) ⟨r.val + 1, by omega⟩ := by
  rw [decryptionState, List.drop_eq_getElem_cons r.isLt, List.foldr_cons, fullRounds_getElem]
  rfl

theorem encryptBlock_eq_encryptionState (w : Schedule) (b : Block) :
    encryptBlock w b = addRoundKey (shiftRows (subBytes (encryptionState w b 9))) w 10 := rfl

theorem decryptBlock_eq_decryptionState (w : Schedule) (c : Block) :
    decryptBlock w c = addRoundKey (invSubBytes (invShiftRows (decryptionState w c 0))) w 0 := by
  rw [decryptBlock, List.foldl_reverse]
  rfl

/-! ### Encryption and decryption undo each other (R117) -/

/-- R116: a full round of decryption begins with the substitution and row shift of the round after, so it undoes a full
round of encryption up to these. -/
theorem invFullRound_fullRound (w : Schedule) (s : Block) (n : Fin 11) :
    invFullRound w (shiftRows (subBytes (fullRound w s n))) n = shiftRows (subBytes s) := by
  rw [invFullRound, invShiftRows_shiftRows, invSubBytes_subBytes, fullRound, addRoundKey_addRoundKey,
    invMixColumns_mixColumns]

theorem fullRound_invFullRound (w : Schedule) (s : Block) (n : Fin 11) :
    fullRound w (invSubBytes (invShiftRows (invFullRound w s n))) n = invSubBytes (invShiftRows s) := by
  rw [fullRound, subBytes_invSubBytes, shiftRows_invShiftRows, invFullRound, mixColumns_invMixColumns,
    addRoundKey_addRoundKey]

/-- Steps g in the reverse order undo steps f, when one step g undoes one step f up to k. -/
theorem foldl_reverse_foldl {α β : Type} {f g : α → β → α} {k : α → α} (h : ∀ a n, g (k (f a n)) n = k a)
    (ns : List β) (a : α) : ns.reverse.foldl g (k (ns.foldl f a)) = k a := by
  induction ns generalizing a with
  | nil => rfl
  | cons n ns ih => rw [List.reverse_cons, List.foldl_concat, List.foldl_cons, ih, h]

theorem decryptBlock_encryptBlock (w : Schedule) (b : Block) : decryptBlock w (encryptBlock w b) = b := by
  have hrounds := foldl_reverse_foldl (k := fun s => shiftRows (subBytes s)) (invFullRound_fullRound w)
  rw [decryptBlock, encryptBlock, addRoundKey_addRoundKey, hrounds, invShiftRows_shiftRows, invSubBytes_subBytes,
    addRoundKey_addRoundKey]

theorem encryptBlock_decryptBlock (w : Schedule) (c : Block) : encryptBlock w (decryptBlock w c) = c := by
  have hrounds := foldl_reverse_foldl (k := fun s => invSubBytes (invShiftRows s)) (fullRound_invFullRound w)
    fullRounds.reverse
  rw [List.reverse_reverse] at hrounds
  rw [encryptBlock, decryptBlock, addRoundKey_addRoundKey, hrounds, subBytes_invSubBytes, shiftRows_invShiftRows,
    addRoundKey_addRoundKey]

/-- R117: encryption under one schedule is a permutation of the blocks. -/
theorem encryptBlock_bijective (w : Schedule) : Function.Bijective (encryptBlock w) :=
  Function.bijective_iff_has_inverse.2 ⟨decryptBlock w, decryptBlock_encryptBlock w, encryptBlock_decryptBlock w⟩

/-- Settles O40: the states between the rounds, and the induction over the rounds by which each function undoes the
other. -/
theorem cipherRoundTrip : Obligations.CipherRoundTrip :=
  fun w => ⟨
    fun b => ⟨encryptionState w b, rfl, encryptionState_succ w b, encryptBlock_eq_encryptionState w b⟩,
    fun c => ⟨decryptionState w c, rfl, decryptionState_of_succ w c, decryptBlock_eq_decryptionState w c⟩,
    decryptBlock_encryptBlock w, encryptBlock_decryptBlock w, encryptBlock_bijective w⟩

/-! ### ENCB and DECB (R118, R119) -/

/-- Settles O23: ENCB uses no buffer, so its completion waits for no worker. -/
theorem encbCompletes : Obligations.EncbCompletes :=
  fun _ ht hb ho he => exec_completes (i := .encb) ht hb ho he (.inl rfl)

/-- Settles O24: nor does DECB. -/
theorem decbCompletes : Obligations.DecbCompletes :=
  fun _ ht hb ho he => exec_completes (i := .decb) ht hb ho he (.inl rfl)

/-- R151 to R153: without a buffer, NOKEY is the only error a command can have. -/
theorem check_encode_noBuffer {i : Instr} {s : State} (hi : usesBuffer i = false) (hkv : s.kv = true) :
    check (encode i) s = codeNone := by
  simp [check, decode_encode, hi, hkv]

/-- R118, R119, R142, R143: a block command accepted by an idle core with KV = 1 and completed next, where f is its block
function. -/
theorem blockCommand_runs {i : Instr} {f : Schedule → Block → Block} (hi : usesBuffer i = false)
    (hwork : ∀ s, workOf i s = s.setBlk (quadOfBlock (f s.rk s.block))) {s : State} (ht : s.turn = .host)
    (hb : s.status.busy = false) (hkv : s.kv = true) :
    ∃ t u, exec i s = .next t ∧ exec i { t with turn := .controller } = .next u ∧
      u.status.done = true ∧ u.status.busy = false ∧ u.kv = true ∧ u.rk = s.rk ∧
      u.blk = quadOfBlock (f s.rk s.block) := by
  have haccept : exec i s = .next (accept (encode i) s) := by rw [exec_host ht, writeCmd_idle hb]
  rw [accept_encode, check_encode_noBuffer hi hkv] at haccept
  refine ⟨_, _, haccept, exec_completes rfl rfl rfl rfl (.inl hi), ?_⟩
  rw [hwork]
  exact ⟨rfl, rfl, hkv, rfl, rfl⟩

/-- Settles O41: the second command finds the first one's result in BLK and the same schedule in RK. -/
theorem encbThenDecbRestores : Obligations.EncbThenDecbRestores := by
  intro s ht hb hkv
  obtain ⟨t, u, hencb, hencbDone, hdone, hidle, hvalid, hrk, hblk⟩ :=
    blockCommand_runs (i := .encb) rfl (fun _ => rfl) ht hb hkv
  obtain ⟨v, x, hdecb, hdecbDone, hdone', -, -, -, hblk'⟩ :=
    blockCommand_runs (i := .decb) (s := { u with turn := .host }) rfl (fun _ => rfl) rfl hidle hvalid
  refine ⟨t, u, v, x, hencb, hencbDone, hdecb, hdecbDone, hdone, hdone', ?_⟩
  calc x.blk
    _ = quadOfBlock (decryptBlock u.rk (blockOfQuad u.blk)) := hblk'
    _ = quadOfBlock (decryptBlock s.rk (encryptBlock s.rk s.block)) := by rw [hrk, hblk, blockOfQuad_quadOfBlock]
    _ = quadOfBlock (blockOfQuad s.blk) := by rw [decryptBlock_encryptBlock, State.block]
    _ = s.blk := quadOfBlock_blockOfQuad s.blk

end Sys2Proof.Proofs

/-! SUPPORT. The ECB commands step by step: the two assignments of ranges, what the controller and a worker do for the
command in progress, and when they have no step. -/

namespace Sys2Proof.Proofs

open Sys2Proof Sys2Proof.Machine

/-! ### The assignments of block ranges (R130, R131) -/

/-- Settles O9: the list of R130, entry by entry. -/
theorem sequentialAssignment : Obligations.SequentialAssignment := by
  intro p n
  refine ⟨rfl, rfl, sequentialRanges_length p n, fun w hw => ?_⟩
  rw [sequentialRanges, List.getElem?_map, List.getElem?_range hw]
  rfl

/-- Settles O10: every bound is the multiple `w·chunk` cut off at n, and P chunks hold n blocks. -/
theorem parallelPartition : Obligations.ParallelPartition := by
  intro p n hp chunk
  have hbounds : ∀ w, (parallelRange p n w).lo.toNat = min n.toNat (w * chunk) ∧
      (parallelRange p n w).hi.toNat = min n.toNat ((w + 1) * chunk) ∧
      (parallelRange p n w).nx = (parallelRange p n w).lo := parallelRange_toNat p n
  have hsucc : ∀ w, (w + 1) * chunk = w * chunk + chunk := fun w => Nat.succ_mul w chunk
  have hcover : n.toNat ≤ p.numWorkers * chunk := le_mul_chunk (platform_wf_workers hp).1
  clear_value chunk
  refine ⟨rfl, parallelRanges_length p n, fun w k hk => ?_, fun w k k' hk hk' => ?_⟩
  · obtain ⟨-, rfl⟩ := parallelRanges_get hk
    obtain ⟨hlo, hhi, hnx⟩ := hbounds w
    have hw := hsucc w
    refine ⟨hlo, hhi, hnx, by omega, by omega, fun h0 => ?_, fun hlast => ?_⟩
    · refine BitVec.eq_of_toNat_eq ?_
      rw [hlo, h0, Nat.zero_mul, Nat.min_zero]
      rfl
    · refine BitVec.eq_of_toNat_eq ?_
      rw [hhi, hlast, Nat.min_eq_left hcover]
  · obtain ⟨-, rfl⟩ := parallelRanges_get hk
    obtain ⟨-, rfl⟩ := parallelRanges_get hk'
    obtain ⟨-, hhi, -⟩ := hbounds w
    obtain ⟨hlo', hhi', -⟩ := hbounds (w + 1)
    refine ⟨BitVec.eq_of_toNat_eq (hlo'.trans hhi.symm), fun h => BitVec.eq_of_toNat_eq ?_⟩
    have hend : n.toNat = min n.toNat ((w + 1) * chunk) := by rw [← hhi, h]
    have hw := hsucc (w + 1)
    omega

/-! ### Whose step it is (R133, R143) -/

/-- R143: where OPL names a command, the controller's event is that command's step. -/
theorem controllerEvent_named {s : State} {i : Instr} (h : s.opl = i.opcode) : controllerEvent s = exec i s := by
  rw [controllerEvent, h, ofOpcode_opcode]

/-- R133: and so is a worker's. -/
theorem workerEvent_named {s : State} {i : Instr} (h : s.opl = i.opcode) : workerEvent s = exec i s := by
  rw [workerEvent, h, ofOpcode_opcode]

/-- Settles O5: the event sets the turn, and OPL names the command. -/
theorem stepRunsTheCommandInProgress : Obligations.StepRunsTheCommandInProgress :=
  fun _ _ _ ho => ⟨fun hi => (step_input hi).trans (controllerEvent_named ho),
    fun _ hi => (step_input hi).trans (workerEvent_named ho)⟩

/-- R133: exactly when a worker has no step. -/
theorem workerReady_eq_none_iff {i : Instr} {w : Nat} {s : State} : workerReady i w s = none ↔
    ¬((s.status.busy = true ∧ s.opl = i.opcode) ∧ usesBuffer i = true ∧ s.ecl = codeNone ∧
      ∃ k, s.workers[w]? = some k ∧ k.nx < k.hi) := by
  rw [Option.eq_none_iff_forall_ne_some]
  simp only [ne_eq, workerReady_iff]
  constructor
  · rintro h ⟨hp, hu, he, k, hk⟩
    exact h k ⟨hp, hu, he, hk⟩
  · rintro h k ⟨hp, hu, he, hk⟩
    exact h ⟨hp, hu, he, k, hk⟩

theorem workerStep_stutters {i : Instr} {f : Schedule → Block → Block} {w : Nat} {s : State}
    (h : workerReady i w s = none) : workerStep i f w s = .next s := by
  rw [workerStep, h]

/-- R143: the controller has no step for a command that is not in progress, or whose workers have not joined. -/
theorem controllerStep_stutters {i : Instr} {work : State → State} {s : State}
    (h : ¬(s.status.busy = true ∧ s.opl = i.opcode) ∨ controllerEnabled s = false) :
    controllerStep i work s = s := by
  rcases h with h | h
  · have hp : inProgress i s = false := by simpa [inProgress] using h
    simp [controllerStep, hp]
  · simp [controllerStep, h]

/-- Settles O30: without a step the controller and the workers stutter. -/
theorem noStepLeavesTheState : Obligations.NoStepLeavesTheState := by
  intro i s
  refine ⟨fun ht h => ?_, fun w ht h => ?_⟩
  · rw [exec_controller ht, controllerStep_stutters (.inl h)]
  · rw [exec_worker ht, workerStep_stutters]
    rw [workerReady_eq_none_iff, and_assoc]
    exact h

/-- R134: a block step changes the state: the worker's progress advances, or the step stops. -/
theorem workerStep_ne {i : Instr} {f : Schedule → Block → Block} {w : Nat} {s : State} {k : Worker}
    (h : workerReady i w s = some k) : workerStep i f w s ≠ .next s := by
  obtain ⟨-, -, -, hk, -⟩ := workerReady_some h
  intro hs
  rcases workerStep_cases i f w s with ⟨k', hk', -, he⟩ | ⟨k', -, -, he⟩ | ⟨hn, -⟩
  · cases hk'.symm.trans h
    have hw : s.workers.set w { k with nx := k.nx + 1 } = s.workers :=
      congrArg State.workers (Host.Outcome.next.inj (he.symm.trans hs))
    have hlt : w < s.workers.length := (List.getElem?_eq_some_iff.1 hk).1
    have hself : some { k with nx := k.nx + 1 } = some k := by
      rw [← List.getElem?_set_self hlt, hw, hk]
    have hnx : k.nx + 1 = k.nx := congrArg Worker.nx (Option.some.inj hself)
    bv_omega
  · cases he.symm.trans hs
  · cases hn.symm.trans h

/-- Settles O29: OPL names a buffer command, and its step changes the state exactly when the worker is ready. -/
theorem workerStepsExactlyWhenReady : Obligations.WorkerStepsExactlyWhenReady := by
  intro s w ht
  rw [← opcodeIs_usesBuffer]
  cases ho : Instr.ofOpcode s.opl with
  | none => simp [workerEvent, opcodeIs, ho]
  | some i =>
    have hop := opcode_of_ofOpcode ho
    have hready : workerStep i (blockFunctionOf i) w s ≠ .next s ↔ ¬workerReady i w s = none := by
      refine not_congr ⟨fun h => ?_, workerStep_stutters⟩
      by_contra hne
      obtain ⟨k, hk⟩ := Option.ne_none_iff_exists'.1 hne
      exact workerStep_ne hk h
    rw [workerEvent_named hop.symm, exec_worker ht, hready, workerReady_eq_none_iff, not_not, and_iff_left hop.symm,
      ← hop, opcodeIs_opcode]
    rfl

/-! ### A block step, and the join (R134, R135) -/

/-- Settles O26: the block is read, transformed and stored at the same 16 bytes. -/
theorem ecbWorkerStep : Obligations.EcbWorkerStep := by
  intro i s w k hi ht hb ho he hk hlt hwf a f ha
  have hready : workerReady i w s = some k :=
    workerReady_iff.2 ⟨⟨hb, ho⟩, (usesBuffer_iff i).2 hi, he, hk, hlt⟩
  have hf : blockFunctionOf i = f := by rcases hi with rfl | rfl | rfl <;> rfl
  have hstep : exec i s = .next (afterBlock i w k s) := by
    rw [exec_worker ht, workerStep, hready]
    exact if_pos (show a + 16 ≤ 2 ^ s.platform.addrWidth by omega)
  refine ⟨_, hstep, fun b hread j => ?_, fun x hx => memRead_writeBlock_outside _ hx, rfl⟩
  rw [eq_readBlock hread, ← hf]
  exact memRead_writeBlock_inside a _ j.val j.isLt hwf

/-- Settles O27: the controller is enabled by the join alone, and an ECB command's completion has no work. -/
theorem ecbJoin : Obligations.EcbJoin := by
  intro i s hi ht hb ho he
  refine ⟨fun hj => ?_, fun ⟨k, hk, hne⟩ => ?_⟩
  · rw [exec_completes ht hb ho he (.inr hj), workOf_buffer hi]
    rfl
  · have hu : opcodeIs usesBuffer s.opl = true := by rw [ho, opcodeIs_opcode, (usesBuffer_iff i).2 hi]
    have hen : controllerEnabled s = false := by
      rw [← Bool.not_eq_true, controllerEnabled_iff]
      rintro ⟨-, h | h | h⟩
      · exact h he
      · simp [hu] at h
      · exact hne (h k hk)
    rw [exec_controller ht, controllerStep_stutters (.inr hen)]

end Sys2Proof.Proofs

/-! SUPPORT. The ECB commands as a whole: the invariant that holds between acceptance and completion whatever the ranges
and the order of the agents' steps, and what it says once BUSY is 0. -/

namespace Sys2Proof.Proofs

open Sys2Proof Sys2Proof.Machine Sys2Proof.Safety

/-! ### Runs of the core's agents (R133, R143) -/

/-- An agent's step consumes its own event and no other. -/
theorem agentStep_inputs {s t : State} {e : Event} {es : List Event} (he : isAgentEvent e = true)
    (hi : s.inputs = e :: es) (h : step s = .next t) : t.inputs = es := by
  rw [step_input hi] at h
  cases e with
  | controller =>
    rcases controllerEvent_cases (s := s.atTurn es .controller) rfl h with rfl | rfl | ⟨i, rfl⟩
    · rfl
    · rfl
    · simp [workOf_frame]
  | worker w =>
    rcases workerEvent_cases (s := s.atTurn es (.worker w)) rfl h with rfl | ⟨i, k, -, rfl⟩
    · rfl
    · rfl
  | reset | busWrite | busRead | memWrite | memRead | program => cases he

/-- What every step of the core's agents keeps, a run of theirs keeps. -/
theorem run_induction {P : State → Prop}
    (hstep : ∀ {e es u v}, isAgentEvent e = true → u.inputs = e :: es → P u → step u = .next v → P v)
    {evs : List Event} {s t : State} (hevs : evs.all isAgentEvent = true) (hi : s.inputs = evs) (hs : P s)
    (hrun : Sys2Proof.core.run evs.length s = .next t) : P t := by
  induction evs generalizing s with
  | nil =>
    cases hrun
    exact hs
  | cons e es ih =>
    rw [List.all_cons, Bool.and_eq_true] at hevs
    obtain ⟨he, hes⟩ := hevs
    simp only [List.length_cons, Host.Core.run] at hrun
    split at hrun
    · next u hu => exact ih hes (agentStep_inputs he hi hu) (hstep he hi hs hu) hrun
    · cases hrun
    · cases hrun

/-- Everything an agent's step can do for an ECB command that passed its checks: nothing, the completion once all
workers have joined, or a ready worker's block step. -/
theorem agentStep_cases {i : Instr} {s t : State} {e : Event} {es : List Event} (he : isAgentEvent e = true)
    (hin : s.inputs = e :: es) (hi : usesBuffer i = true) (ho : s.opl = i.opcode) (hc : s.ecl = codeNone)
    (h : step s = .next t) :
    CoreEq s t ∨ ((∀ k ∈ s.workers, k.nx = k.hi) ∧ CoreEq (s.setStatus s.status.completed) t) ∨
      ∃ w k, workerReady i w s = some k ∧ CoreEq (afterBlock i w k s) t := by
  obtain ⟨hctrl, hwork⟩ := stepRunsTheCommandInProgress s i es ho
  cases e with
  | controller =>
    rw [hctrl hin] at h
    by_cases hb : s.status.busy = true
    · obtain ⟨hdone, hwait⟩ :=
        ecbJoin i (s.atTurn es .controller) ((usesBuffer_iff i).1 hi) rfl hb ho hc
      by_cases hj : ∀ k ∈ s.workers, k.nx = k.hi
      · cases (hdone hj).symm.trans h
        exact .inr (.inl ⟨hj, rfl⟩)
      · push Not at hj
        cases (hwait hj).symm.trans h
        exact .inl rfl
    · cases ((noStepLeavesTheState i (s.atTurn es .controller)).1 rfl fun hp => hb hp.1).symm.trans h
      exact .inl rfl
  | worker w =>
    have hexec : exec i (s.atTurn es (.worker w)) = .next t := (hwork w hin).symm.trans h
    rw [exec_worker rfl] at hexec
    rcases workerStep_cases i (blockFunctionOf i) w (s.atTurn es (.worker w)) with
      ⟨k, hk, -, heq⟩ | ⟨k, -, -, heq⟩ | ⟨-, heq⟩
    · cases heq.symm.trans hexec
      exact .inr (.inr ⟨w, k, hk, rfl⟩)
    · cases heq.symm.trans hexec
    · cases heq.symm.trans hexec
      exact .inl rfl
  | reset | busWrite | busRead | memWrite | memRead | program => cases he

/-! ### The bytes of the result (R125) -/

/-- R125: the block functions the statements and the workers' steps name are the same. -/
theorem ecbFunction_eq (i : Instr) : ecbFunction i = blockFunctionOf i := by cases i <;> rfl

/-- R125: the bytes of block j of the result are those of f of the original block j. -/
theorem ecbByte_block {n j : Nat} (hj : j < n) (f : Block → Block) (m : List Host.Cell) (base : Nat) (i : Fin 16) :
    ecbByte f m base n (base + 16 * j + i.val) = (f (readBlock m (base + 16 * j)))[i] := by
  have hdiv : (base + 16 * j + i.val - base) / 16 = j := by omega
  have hmod : (base + 16 * j + i.val - base) % 16 = i.val := by omega
  rw [ecbByte, if_pos (by omega)]
  simp only [hdiv, hmod]
  rfl

theorem ecbByte_outside {n base a : Nat} (h : a < base ∨ base + 16 * n ≤ a) (f : Block → Block)
    (m : List Host.Cell) : ecbByte f m base n a = memRead m a := if_neg (by omega)

/-- R125, R136: block by block, the result is f of the original. -/
theorem readBlock_of_ecbByte {f : Block → Block} {m m' : List Host.Cell} {base n j : Nat}
    (h : ∀ a, memRead m' a = ecbByte f m base n a) (hj : j < n) :
    readBlock m' (base + 16 * j) = f (readBlock m (base + 16 * j)) :=
  (eq_readBlock fun i => by rw [h, ecbByte_block hj]).symm

/-! ### The bytes already processed -/

/-- The byte at address a of the buffer at base lies in a block that its worker has processed. -/
def ProcessedByte (ws : List Worker) (base a : Nat) : Prop :=
  ∃ (w : Nat) (k : Worker), ws[w]? = some k ∧ base + 16 * k.lo.toNat ≤ a ∧ a < base + 16 * k.nx.toNat

/-- Right after acceptance no byte is processed. -/
theorem not_processedByte_of_waiting {ws : List Worker} (h : ∀ k ∈ ws, k.nx = k.lo) (base a : Nat) :
    ¬ProcessedByte ws base a := by
  rintro ⟨w, k, hk, hlo, hnx⟩
  rw [h k (List.mem_of_getElem? hk)] at hnx
  omega

/-- R134: a block step adds the 16 bytes of its block. -/
theorem processedByte_set {ws : List Worker} {w : Nat} {k : Worker} (hk : ws[w]? = some k) (hlo : k.lo ≤ k.nx)
    (hlt : k.nx < k.hi) (base a : Nat) :
    ProcessedByte (ws.set w { k with nx := k.nx + 1 }) base a ↔
      ProcessedByte ws base a ∨ (base + 16 * k.nx.toNat ≤ a ∧ a < base + 16 * k.nx.toNat + 16) := by
  have hw : w < ws.length := (List.getElem?_eq_some_iff.1 hk).1
  have hnx := nx_succ_toNat hlt
  rw [BitVec.le_def] at hlo
  constructor
  · rintro ⟨w', k', hk', h1, h2⟩
    by_cases hne : w = w'
    · subst hne
      cases (List.getElem?_set_self hw).symm.trans hk'
      by_cases ha : a < base + 16 * k.nx.toNat
      · exact .inl ⟨w, k, hk, h1, ha⟩
      · exact .inr (by simp only at h2; omega)
    · exact .inl ⟨w', k', (List.getElem?_set_ne hne).symm.trans hk', h1, h2⟩
  · rintro (⟨w', k', hk', h1, h2⟩ | ⟨h1, h2⟩)
    · by_cases hne : w = w'
      · subst hne
        cases hk.symm.trans hk'
        exact ⟨w, _, List.getElem?_set_self hw, h1, by simp only; omega⟩
      · exact ⟨w', k', (List.getElem?_set_ne hne).trans hk', h1, h2⟩
    · exact ⟨w, _, List.getElem?_set_self hw, by simp only; omega, by simp only; omega⟩

/-- R131, R134: the block a worker is about to process has no processed byte, since no other worker owns it. -/
theorem not_processedByte_of_next {ws : List Worker} {n : BlockIndex} (h : Partition ws n) {w : Nat} {k : Worker}
    (hk : ws[w]? = some k) (hlt : k.nx < k.hi) {base a : Nat} (h1 : base + 16 * k.nx.toNat ≤ a)
    (h2 : a < base + 16 * k.nx.toNat + 16) : ¬ProcessedByte ws base a := by
  rintro ⟨w', k', hk', hlo', hnx'⟩
  obtain ⟨hlo, -, hhi⟩ := h.ordered k (List.mem_of_getElem? hk)
  obtain ⟨-, hnxhi', -⟩ := h.ordered k' (List.mem_of_getElem? hk')
  simp only [BitVec.le_def, BitVec.lt_def] at *
  obtain ⟨x, -, honly⟩ := h.owned k.nx.toNat (by omega)
  have hwx : w = x := honly w ⟨k, hk, hlo, hlt⟩
  have hwx' : w' = x := honly w' ⟨k', hk', by omega, by omega⟩
  rw [hwx'] at hk'
  rw [hwx] at hk
  cases hk.symm.trans hk'
  omega

/-- R131, R135: after the join the processed bytes are those of the buffer. -/
theorem processedByte_of_joined {ws : List Worker} {n : BlockIndex} (h : Partition ws n)
    (hj : ∀ k ∈ ws, k.nx = k.hi) (base a : Nat) :
    ProcessedByte ws base a ↔ base ≤ a ∧ a < base + 16 * n.toNat := by
  constructor
  · rintro ⟨w, k, hk, h1, h2⟩
    obtain ⟨-, hnx, hhi⟩ := h.ordered k (List.mem_of_getElem? hk)
    simp only [BitVec.le_def] at *
    omega
  · rintro ⟨h1, h2⟩
    obtain ⟨w, ⟨k, hk, hlo, hhi⟩, -⟩ := h.owned ((a - base) / 16) (by omega)
    have hnx : k.nx.toNat = k.hi.toNat := by rw [hj k (List.mem_of_getElem? hk)]
    exact ⟨w, k, hk, by omega, by omega⟩

/-! ### The invariant of an ECB command (R125, R133 to R135) -/

/-- State u lies between the acceptance of ECB command i in state s and the next acceptance: the latches, the schedule
and the partition stand, DONE is set and all workers have joined once BUSY is 0, every processed byte is the result's,
and every other byte is the one s holds. -/
structure EcbProgress (i : Instr) (s u : State) : Prop where
  opcode      : u.opl = i.opcode
  passed      : u.ecl = codeNone
  address     : u.addrl = s.addrl
  schedule    : u.rk = s.rk
  canonical   : Memory.wf u.mem
  partition   : Partition u.workers s.nbl
  no_error    : u.status.err = false
  finished    : u.status.busy = false → u.status.done = true ∧ ∀ k ∈ u.workers, k.nx = k.hi
  transformed : ∀ a, ProcessedByte u.workers s.addrl.toNat a →
    memRead u.mem a = ecbByte (blockFunctionOf i s.rk) s.mem s.addrl.toNat s.nbl.toNat a
  kept        : ∀ a, ¬ProcessedByte u.workers s.addrl.toNat a → memRead u.mem a = memRead s.mem a

section
variable {i : Instr} {s u v : State}

/-- The model's own fields have no part in the invariant. -/
theorem ecbProgress_of_coreEq (h : CoreEq u v) (hu : EcbProgress i s u) : EcbProgress i s v := by
  obtain ⟨-, hst, -, -, -, -, -, hrk, ho, he, ha, -, hw, hm⟩ := h.fields
  obtain ⟨h1, h2, h3, h4, h5, h6, h7, h8, h9, h10⟩ := hu
  constructor <;> simpa only [hst, hrk, ho, he, ha, hw, hm]

/-- R142: right after acceptance nothing is processed. -/
theorem ecbProgress_fresh (h : FreshBuffer i s) : EcbProgress i s s where
  opcode := h.opcode
  passed := h.passed
  address := rfl
  schedule := rfl
  canonical := h.legal.memory.1
  partition := ⟨h.legal.ranges.ordered, h.legal.ranges.owned⟩
  no_error := (h.legal.status.busy_clear h.busy).2.1
  finished hb := absurd (h.busy.symm.trans hb) (by decide)
  transformed a ha := absurd ha (not_processedByte_of_waiting h.waiting _ a)
  kept _ _ := rfl

/-- R135: completion after the join reports DONE and touches no block. -/
theorem ecbProgress_completed (h : EcbProgress i s u) (hj : ∀ k ∈ u.workers, k.nx = k.hi) :
    EcbProgress i s (u.setStatus u.status.completed) :=
  { h with finished := fun _ => ⟨rfl, hj⟩ }

/-- R134: the block a ready worker is at still holds its original bytes. -/
theorem readBlock_of_workerReady (h : EcbProgress i s u) {w : Nat} {k : Worker} (hk : workerReady i w u = some k) :
    readBlock u.mem (blockAddress s.addrl k.nx) = readBlock s.mem (blockAddress s.addrl k.nx) := by
  obtain ⟨-, -, -, hw, hlt⟩ := workerReady_some hk
  refine eq_readBlock fun j => ?_
  rw [readBlock_get]
  exact h.kept _ (not_processedByte_of_next h.partition hw hlt (Nat.le_add_right _ _)
    (Nat.add_lt_add_left j.isLt _))

/-- R134: a block step keeps the invariant. -/
theorem ecbProgress_block (h : EcbProgress i s u) {w : Nat} {k : Worker} (hk : workerReady i w u = some k) :
    EcbProgress i s (afterBlock i w k u) := by
  obtain ⟨⟨hb, -⟩, -, -, hw, hlt⟩ := workerReady_iff.1 hk
  obtain ⟨hlo, -, hhi⟩ := h.partition.ordered k (List.mem_of_getElem? hw)
  have hset := processedByte_set hw hlo hlt s.addrl.toNat
  have hnew := fun a => not_processedByte_of_next h.partition hw hlt (base := s.addrl.toNat) (a := a)
  have hmem : (afterBlock i w k u).mem = writeBlock u.mem (blockAddress s.addrl k.nx)
      (blockFunctionOf i s.rk (readBlock s.mem (blockAddress s.addrl k.nx))) := by
    rw [← readBlock_of_workerReady h hk, ← h.schedule, ← h.address]
    rfl
  have haddr : blockAddress s.addrl k.nx = s.addrl.toNat + 16 * k.nx.toNat := rfl
  have hidx : k.nx.toNat < s.nbl.toNat := Nat.lt_of_lt_of_le hlt hhi
  refine { h with
    canonical := writeBlock_wf _ _ h.canonical
    partition := partition_set h.partition hw hlt
    finished := fun hidle => absurd (hb.symm.trans hidle) (by decide)
    transformed := fun a ha => ?_
    kept := fun a ha => ?_ }
  · rw [hmem]
    by_cases hin : s.addrl.toNat + 16 * k.nx.toNat ≤ a ∧ a < s.addrl.toNat + 16 * k.nx.toNat + 16
    · obtain ⟨d, rfl⟩ := Nat.exists_eq_add_of_le hin.1
      have hd : d < 16 := by omega
      rw [ecbByte_block hidx _ _ _ ⟨d, hd⟩]
      exact memRead_writeBlock_inside _ _ d hd h.canonical
    · rw [memRead_writeBlock_outside _ (by omega)]
      exact h.transformed a (((hset a).1 ha).resolve_right hin)
  · obtain ⟨hold, hin⟩ := not_or.1 (mt (hset a).2 ha)
    rw [hmem, memRead_writeBlock_outside _ (by omega)]
    exact h.kept a hold

/-- Every step of the core's agents keeps the invariant. -/
theorem ecbProgress_step (hi : usesBuffer i = true) {e : Event} {es : List Event} (he : isAgentEvent e = true)
    (hin : u.inputs = e :: es) (h : EcbProgress i s u) (hstep : step u = .next v) : EcbProgress i s v := by
  rcases agentStep_cases he hin hi h.opcode h.passed hstep with hq | ⟨hj, hc⟩ | ⟨w, k, hk, hb⟩
  · exact ecbProgress_of_coreEq hq h
  · exact ecbProgress_of_coreEq hc (ecbProgress_completed h hj)
  · exact ecbProgress_of_coreEq hb (ecbProgress_block h hk)

/-- Whatever the ranges and the interleaving, a run from a fresh buffer keeps the invariant. -/
theorem ecbProgress_of_runsTo {t : State} {evs : List Event} (hs : FreshBuffer i s) (hrun : RunsTo s evs t) :
    EcbProgress i s t :=
  run_induction (P := EcbProgress i s) (s := { s with inputs := evs }) (ecbProgress_step hs.buffer) hrun.1 rfl
    (ecbProgress_of_coreEq (u := s) rfl (ecbProgress_fresh hs)) hrun.2

/-- R125, R135: once BUSY is 0 every byte of memory is the result's. -/
theorem ecbProgress_result (h : EcbProgress i s u) (hb : u.status.busy = false) (a : Nat) :
    memRead u.mem a = ecbByte (ecbFunction i s.rk) s.mem s.addrl.toNat s.nbl.toNat a := by
  obtain ⟨-, hj⟩ := h.finished hb
  have hbuf := processedByte_of_joined h.partition hj s.addrl.toNat a
  rw [ecbFunction_eq]
  by_cases hp : ProcessedByte u.workers s.addrl.toNat a
  · exact h.transformed a hp
  · have hout : a < s.addrl.toNat ∨ s.addrl.toNat + 16 * s.nbl.toNat ≤ a := by
      rw [hbuf] at hp
      omega
    rw [h.kept a hp, ecbByte_outside hout]

end

/-! ### The statements about whole commands (R136 to R140) -/

/-- Settles O42: the invariant, read at completion. -/
theorem ecbNetEffect : Obligations.EcbNetEffect := by
  intro i s t evs hs hrun hb
  have h := ecbProgress_of_runsTo hs hrun
  exact ⟨(h.finished hb).1, h.no_error, ecbProgress_result h hb⟩

/-- Settles O44: both memories are canonical and hold the same result at every address. -/
theorem parallelEqualsSequential : Obligations.ParallelEqualsSequential := by
  intro s s' t t' evs evs' hs hs' hm hrk ha hn hrun hrun' hb hb'
  have h := ecbProgress_of_runsTo hs hrun
  have h' := ecbProgress_of_runsTo hs' hrun'
  refine memory_ext h.canonical h'.canonical fun a => ?_
  rw [ecbProgress_result h hb, ecbProgress_result h' hb', hm, hrk, ha, hn]
  rfl

/-- Settles O45: ciphertext blocks are encryptBlock of plaintext blocks, and encryptBlock is injective. -/
theorem ecbDeterminism : Obligations.EcbDeterminism := by
  intro i i' s s' t t' evs evs' m n hi hi' hs hs' hrk hrun hrun' hb hb' hm hn
  obtain ⟨-, -, hres⟩ := ecbNetEffect i s t evs hs hrun hb
  obtain ⟨-, -, hres'⟩ := ecbNetEffect i' s' t' evs' hs' hrun' hb'
  rw [readBlock_of_ecbByte hres hm, readBlock_of_ecbByte hres' hn, ecbFunction, ecbFunction, if_neg hi, if_neg hi',
    hrk]
  exact (encryptBlock_bijective s.rk).1.eq_iff

end Sys2Proof.Proofs

/-! SUPPORT. The control of a command from acceptance to completion: what acceptance latches, what the controller's step
does, and what no step changes while the command is in progress. -/

namespace Sys2Proof.Proofs

open Sys2Proof Sys2Proof.Machine Sys2Proof.Safety

/-! ### NOP and ZEROIZE (R145, R146) -/

/-- Settles O21: NOP uses no buffer and has no work. -/
theorem nopCompletes : Obligations.NopCompletes :=
  fun _ ht hb ho he => exec_completes (i := .nop) ht hb ho he (.inl rfl)

/-- Settles O25: ZEROIZE uses no buffer, so its completion waits for no worker. -/
theorem zeroizeCompletes : Obligations.ZeroizeCompletes :=
  fun _ ht hb ho he => exec_completes (i := .zeroize) ht hb ho he (.inl rfl)

/-! ### Acceptance (R142) -/

/-- R127: of the platform the RANGE check reads A and MemOK only. -/
theorem outOfRange_congr {p q : Platform} (hw : q.addrWidth = p.addrWidth) (hh : q.holes = p.holes)
    (addr len : Word) : outOfRange q addr len = outOfRange p addr len := by
  unfold outOfRange memorySize rangeOK
  rw [hw, hh]

/-- R142: what Check reads. -/
theorem check_congr {s s' : State} (hk : s'.kv = s.kv) (ha : s'.addr = s.addr) (hl : s'.len = s.len)
    (hw : s'.platform.addrWidth = s.platform.addrWidth) (hh : s'.platform.holes = s.platform.holes) (v : Word) :
    check v s' = check v s := by
  simp only [check, hk, ha, hl, outOfRange_congr hw hh]

/-- R130, R131: the ranges of an ECB opcode, ECBEP's being the parallel ones. -/
theorem assignRanges_ecb {op : Nibble} (h : op = 4 ∨ op = 5 ∨ op = 6) (p : Platform) (n : BlockIndex) :
    assignRanges op p n = if op = 5 then parallelRanges p n else sequentialRanges p n := by
  rcases h with rfl | rfl | rfl <;> rfl

/-- R24, R142: the host's write of any word to CMD of an idle core is its acceptance. -/
theorem busWrite_accept {s : State} (hp : s.platform.wf = true) (ht : s.turn = .host) (hb : s.status.busy = false)
    (v : Word) : busWrite (s.platform.base + Reg.offset .cmd) 32 v s = .next (accept v s) := by
  rw [busWrite_reg hp, writeReg, writeCommandReg_host ht, writeCmd_idle hb]

/-- Settles O6: acceptance latches a buffer for an ECB opcode without error, and no block otherwise. -/
theorem acceptanceSetsStatusAndLatches : Obligations.AcceptanceSetsStatusAndLatches := by
  refine ⟨fun s s' v hk ha hl hw hh => check_congr hk ha hl hw hh v, ?_⟩
  intro s v hp ht hb op n work
  refine (busWrite_accept hp ht hb v).trans (congrArg _ ?_)
  have hiff : (check v s = codeNone ∧ opcodeIs usesBuffer (CmdWord.ofWord v).op = true) ↔ work :=
    and_congr_right fun _ => opcodeIs_usesBuffer op
  by_cases h : work
  · rw [accept_buffer (hiff.2 h).1 (hiff.2 h).2, if_pos h, if_pos h, if_pos h, ← assignRanges_ecb h.2, h.1]
    rfl
  · rw [accept_other (mt hiff.1 h), if_neg h, if_neg h, if_neg h]
    rfl

/-- R142: acceptance keeps a legal state legal, whatever the word. -/
theorem legal_accept {s : State} (h : Legal s) (v : Word) : Legal (accept v s) := by
  obtain ⟨hp, -, -, -, -, -, -, hm, -⟩ := accept_frame v s
  exact
    { platform := hp ▸ h.platform
      memory := by simpa only [MemoryLegal, hm, hp] using h.memory
      status := statusLegal_accept v s
      schedule := scheduleLegal_accept h.schedule v
      ranges := rangesLegal_accept h.platform v }

/-- R130, R131: every worker starts at the beginning of its range. -/
theorem assignRanges_waiting {op : Nibble} {p : Platform} {n : BlockIndex} {k : Worker}
    (hk : k ∈ assignRanges op p n) : k.nx = k.lo := by
  obtain ⟨w, hw⟩ := List.mem_iff_getElem?.1 hk
  unfold assignRanges at hw
  split at hw
  · obtain ⟨-, rfl⟩ := sequentialRanges_get hw
    split <;> rfl
  · obtain ⟨-, rfl⟩ := sequentialRanges_get hw
    split <;> rfl
  · obtain ⟨-, rfl⟩ := parallelRanges_get hw
    rfl
  · rw [List.eq_of_mem_replicate (List.mem_of_getElem? hw)]
    rfl

/-- Settles O43: the latches are a buffer's, the state stays legal, and no worker has started. -/
theorem acceptedBufferIsFresh : Obligations.AcceptedBufferIsFresh := by
  intro i s hs hi ht hb hc
  have hop : (CmdWord.ofWord (encode i)).op = i.opcode := by rw [ofWord_encode]
  have haccept := accept_buffer (s := s) hc (by rw [hop, opcodeIs_opcode, hi])
  obtain ⟨j, hd, -, hbuf⟩ := check_none hc
  cases (decode_encode i).symm.trans hd
  obtain ⟨hl, hr⟩ := hbuf hi
  refine ⟨accept (encode i) s, by rw [exec_host ht, writeCmd_idle hb], ?fresh, ?_⟩
  case fresh =>
    have hlegal := legal_accept hs (encode i)
    rw [haccept] at hlegal ⊢
    exact ⟨hlegal, hi, rfl, hop, rfl, fun _ => assignRanges_waiting⟩
  rw [haccept]
  exact ⟨rfl, (buffer_of_check hl hr).1, rfl, rfl⟩

/-! ### The controller's step (R143) -/

/-- R143: without a step the controller stutters, whether OPL names a command or not. -/
theorem controllerEvent_stutters {s : State} (ht : s.turn = .controller) (hn : ¬controllerEnabled s = true) :
    controllerEvent s = .next s := by
  unfold controllerEvent
  split
  · rw [exec_controller ht, controllerStep_stutters (.inr (Bool.eq_false_iff.2 hn))]
  · rw [if_neg hn]

/-- R143: without an error latched the controller's step is the work of the command OPL names, and DONE. -/
theorem controllerEvent_completes {s : State} {i : Instr} (ht : s.turn = .controller)
    (hen : controllerEnabled s = true) (he : s.ecl = codeNone) (ho : s.opl = i.opcode) :
    controllerEvent s = .next (afterWork i s) := by
  obtain ⟨hb, hj⟩ := (controllerEnabled_iff s).1 hen
  rw [ho, opcodeIs_opcode] at hj
  rw [controllerEvent_named ho, exec_completes ht hb ho he (hj.resolve_left (absurd he)), (workOf_frame i s).2.1]

/-- Settles O20: stutter, error entry, or the work of the command OPL names. -/
theorem completionStep : Obligations.CompletionStep := by
  intro s ht enabled ok
  have hen : controllerEnabled s = true ↔ enabled := by
    rw [controllerEnabled_iff, ← Bool.not_eq_true, opcodeIs_usesBuffer]
    exact Iff.rfl
  refine ⟨fun hn => controllerEvent_stutters ht (mt hen.1 hn), fun h he => controllerEvent_error ht h.1 he,
    fun h he => ?_⟩
  have hwork : ∀ i : Instr, s.opl = i.opcode → controllerEvent s = .next (afterWork i s) :=
    fun i => controllerEvent_completes ht (hen.2 h) he
  refine ⟨hwork .keyexp, hwork .encb, hwork .decb, hwork .zeroize, ?_⟩
  rintro (ho | ho | ho | ho)
  · exact hwork .nop ho
  · exact hwork .ecbe ho
  · exact hwork .ecbep ho
  · exact hwork .ecbd ho

/-! ### While a command is in progress (R144, R147, R179) -/

/-- R147: what a command in progress keeps from acceptance to completion. -/
def keyState (s : State) : Bool × Schedule × Quad := (s.kv, s.rk, s.key)

/-- R26, R144, R179: which command is in progress, what it latched, and the operand registers ADDR and LEN. -/
def commandState (s : State) : Nibble × Nibble × Word × BlockIndex × Word × Word :=
  (s.opl, s.ecl, s.addrl, s.nbl, s.addr, s.len)

/-- Neither the key state, nor the command in progress and its latches, nor BUSY changed. -/
def CommandKept (s t : State) : Prop :=
  keyState t = keyState s ∧ commandState t = commandState s ∧ t.status.busy = s.status.busy

theorem coreEq_status {u t : State} (h : CoreEq u t) : t.status = u.status := h.fields.2.1

theorem coreEq_keyState {u t : State} (h : CoreEq u t) : keyState t = keyState u := by
  obtain ⟨-, -, hv, -, -, hk, -, hw, -⟩ := h.fields
  rw [keyState, hv, hk, hw]
  rfl

theorem coreEq_commandState {u t : State} (h : CoreEq u t) : commandState t = commandState u := by
  obtain ⟨-, -, -, ha, hl, -, -, -, ho, he, hla, hn, -⟩ := h.fields
  rw [commandState, ha, hl, ho, he, hla, hn]
  rfl

theorem commandKept_of_coreEq {s u t : State} (h : CoreEq u t) (hu : CommandKept s u) : CommandKept s t := by
  obtain ⟨hk, hc, hb⟩ := hu
  exact ⟨(coreEq_keyState h).trans hk, (coreEq_commandState h).trans hc, by rw [coreEq_status h, hb]⟩

/-- R143: the completion of the command in progress is the error entry, or the work of the command OPL names; where OPL
names none, it is NOP's. -/
theorem complete_opl {work : State → State} {s : State}
    (hw : (∃ i, Instr.ofOpcode s.opl = some i ∧ ∀ u, work u = workOf i u) ∨
      (Instr.ofOpcode s.opl = none ∧ ∀ u, work u = u)) :
    complete work s = raiseCmdError s ∨
    (s.ecl = codeNone ∧ ∃ i, (s.opl = i.opcode ∨ i = .nop) ∧ complete work s = afterWork i s) := by
  by_cases he : s.ecl = codeNone
  · refine .inr ⟨he, ?_⟩
    rw [complete_ok he]
    rcases hw with ⟨i, hi, hwork⟩ | ⟨-, hwork⟩
    · exact ⟨i, .inl (opcode_of_ofOpcode hi).symm, by rw [hwork, (workOf_frame i s).2.1]⟩
    · exact ⟨.nop, .inr rfl, by rw [hwork]; rfl⟩
  · exact .inl (complete_error he)

/-- R144: a step of a busy core that is no reset keeps the command in progress, or is the controller's completion. -/
theorem step_busy {s t : State} (hb : s.status.busy = true) (h : step s = .next t)
    (hr : s.inputs.head? ≠ some .reset) :
    CommandKept s t ∨ (t.turn = .controller ∧ (CoreEq (raiseCmdError s) t ∨
      (s.ecl = codeNone ∧ ∃ i, (s.opl = i.opcode ∨ i = .nop) ∧ CoreEq (afterWork i s) t))) := by
  rcases step_move h with hm | ⟨es, hi, -⟩
  · cases hm with
    | quiet h => exact .inl (commandKept_of_coreEq h ⟨rfl, rfl, rfl⟩)
    | command v h =>
      rw [writeCmd_busy hb] at h
      exact .inl (commandKept_of_coreEq h ⟨rfl, rfl, rfl⟩)
    | operand r v h _ =>
      rw [writeOperandReg, if_pos hb] at h
      exact .inl (commandKept_of_coreEq h ⟨rfl, rfl, rfl⟩)
    | memory a b h _ _ => exact .inl (commandKept_of_coreEq h ⟨rfl, rfl, rfl⟩)
    | block i w k _ _ h _ => exact .inl (commandKept_of_coreEq h ⟨rfl, rfl, rfl⟩)
    | completed work h _ hw ht =>
      refine .inr ⟨ht, ?_⟩
      rcases complete_opl hw with heq | ⟨he, i, hi, heq⟩
      · exact .inl (heq ▸ h)
      · exact .inr ⟨he, i, hi, heq ▸ h⟩
  · exact absurd (by rw [hi]; rfl) hr

/-- R92, R146: only the work of KEYEXP and ZEROIZE changes the key state. -/
theorem keyState_afterWork {i : Instr} (hi : i ≠ .keyexp ∧ i ≠ .zeroize) (s : State) :
    keyState (afterWork i s) = keyState s := by
  obtain ⟨-, hkey, hrk⟩ := workOf_registers i s
  simp [keyState, hkey hi.2, hrk hi.1 hi.2]

/-- R143: no command's work changes the latches, ADDR or LEN. -/
theorem commandState_afterWork (i : Instr) (s : State) : commandState (afterWork i s) = commandState s := by
  simp [commandState, workOf_frame]

theorem keyState_eq_iff {s t : State} : keyState t = keyState s ↔ t.kv = s.kv ∧ t.rk = s.rk ∧ t.key = s.key := by
  simp [keyState]

theorem commandState_eq_iff {s t : State} : commandState t = commandState s ↔
    t.opl = s.opl ∧ t.ecl = s.ecl ∧ t.addrl = s.addrl ∧ t.nbl = s.nbl ∧ t.addr = s.addr ∧ t.len = s.len := by
  simp [commandState]

/-- Settles O58: of the completions only those of KEYEXP and ZEROIZE work on the key state. -/
theorem keyStateFixedWhileBusy : Obligations.KeyStateFixedWhileBusy := by
  intro s t hb h hr
  rw [← keyState_eq_iff]
  rcases step_busy hb h hr with ⟨hk, -⟩ | ⟨-, hf | ⟨he, i, ho, hc⟩⟩
  · exact .inl hk
  · exact .inl (coreEq_keyState (u := raiseCmdError s) hf)
  · by_cases hi : i ≠ .keyexp ∧ i ≠ .zeroize
    · exact .inl ((coreEq_keyState hc).trans (keyState_afterWork hi s))
    · have hidle : t.status.busy = false := by rw [coreEq_status hc]; rfl
      refine .inr ⟨hidle, he, ?_⟩
      cases i with
      | keyexp => exact .inl (ho.resolve_right (by decide))
      | zeroize => exact .inr (ho.resolve_right (by decide))
      | nop | encb | decb | ecbe | ecbep | ecbd => exact absurd ⟨by decide, by decide⟩ hi

/-- Settles O59: every step keeps the command and its latches, and the only one that clears BUSY is the controller's. -/
theorem oneCommandAtATime : Obligations.OneCommandAtATime := by
  intro s t hb h hr
  suffices hs : commandState t = commandState s ∧ (t.status.busy = false → t.turn = .controller) by
    rw [commandState_eq_iff] at hs
    simpa only [and_assoc] using hs
  rcases step_busy hb h hr with ⟨-, hc, hbusy⟩ | ⟨ht, hf | ⟨-, i, -, hc⟩⟩
  · exact ⟨hc, fun hidle => by simp [hbusy, hb] at hidle⟩
  · exact ⟨coreEq_commandState (u := raiseCmdError s) hf, fun _ => ht⟩
  · exact ⟨(coreEq_commandState hc).trans (commandState_afterWork i s), fun _ => ht⟩

end Sys2Proof.Proofs

/-! SUPPORT. The errors of a command: which one its check finds, what a command that has one does, and that no step of the
core's own agents stops. -/

namespace Sys2Proof.Proofs

open Sys2Proof Sys2Proof.Machine Sys2Proof.Safety

/-! ### Precision (R155, R156) -/

/-- R142, R155: a command with an error latches its code, and no block or range. -/
theorem accept_encode_error {i : Instr} {s : State} (he : check (encode i) s ≠ codeNone) :
    accept (encode i) s = (s.setStatus Status.accepted).setLatches i.opcode (check (encode i) s) 0 0
      (noRanges s.platform) := by
  rw [accept_other fun h => he h.1, ofWord_encode]

/-- Settles O28: acceptance latches the code alone, and the controller's step is the error entry with it. -/
theorem errorsArePrecise : Obligations.ErrorsArePrecise := by
  intro i s ht hb he
  have haccept : exec i s = .next (accept (encode i) s) := by rw [exec_host ht, writeCmd_idle hb]
  rw [accept_encode_error he] at haccept
  exact ⟨_, _, haccept, rfl, rfl, rfl, rfl, (controllerEvent_named rfl).symm.trans (controllerEvent_error rfl rfl he),
    rfl, rfl⟩

/-! ### Priority (R157) -/

/-- R127: the RANGE check fails where the buffer passes 2^A or holds a byte MemOK rejects. -/
theorem outOfRange_iff (p : Platform) (addr len : Word) : outOfRange p addr len = true ↔
    2 ^ p.addrWidth < addr.toNat + len.toNat ∨
      ∃ a, addr.toNat ≤ a ∧ a < addr.toNat + len.toNat ∧ memOK p a = false := by
  have hrange : rangeOK p addr.toNat (addr.toNat + len.toNat) = false ↔
      ∃ a, addr.toNat ≤ a ∧ a < addr.toNat + len.toNat ∧ memOK p a = false := by
    rw [← Bool.not_eq_true, rangeOK_iff]
    push Not
    simp only [ne_eq, Bool.not_eq_true]
  rw [outOfRange, Bool.or_eq_true, decide_eq_true_eq, Bool.not_eq_true', hrange]
  rfl

/-- R157: the order of the errors of a word that spells a command. -/
theorem check_command {v : Word} {i : Instr} (h : decode v = .command i) (s : State) :
    check v s =
      if readsSchedule i = true ∧ s.kv = false then codeNoKey
      else if usesBuffer i = true ∧ s.len.toNat % 16 ≠ 0 then codeLength
      else if usesBuffer i = true ∧ outOfRange s.platform s.addr s.len = true then codeRange
      else codeNone := by
  simp only [check, h, Bool.and_eq_true, Bool.not_eq_true', decide_eq_true_eq]

/-- R151: the opcodes of the commands that read RK are 2 to 6. -/
theorem readsSchedule_iff (i : Instr) : readsSchedule i = true ↔ 2 ≤ i.opcode ∧ i.opcode ≤ 6 := by
  cases i <;> decide

/-- R152, R153: the opcodes of the commands on a buffer are 4 to 6. -/
theorem usesBuffer_iff_opcode (i : Instr) : usesBuffer i = true ↔ 4 ≤ i.opcode ∧ i.opcode ≤ 6 := by
  cases i <;> decide

/-- Settles O8: a word is ILLEGAL exactly when it spells no command; the others' conditions are tested in order. -/
theorem checkFollowsThePriority : Obligations.CheckFollowsThePriority := by
  intro s v op illegal noKey buffer badLength badRange
  have hillegal : (∃ why, decode v = .illegal why) ↔ illegal := decode_illegal_iff v
  cases hd : decode v with
  | illegal why =>
    have hi : illegal := hillegal.1 ⟨why, hd⟩
    exact ⟨fun _ => check_illegal hd s, fun hn => absurd hi hn, fun hn => absurd hi hn, fun hn => absurd hi hn,
      fun hn => absurd hi hn⟩
  | command i =>
    have hi : ¬illegal := by
      intro h
      obtain ⟨why, hw⟩ := hillegal.2 h
      cases hd.symm.trans hw
    have hop : i.opcode = op := opcode_of_ofOpcode (fields_of_decode hd).2
    have hrange : outOfRange s.platform s.addr s.len = true ↔ badRange := outOfRange_iff s.platform s.addr s.len
    have hcheck : check v s = if noKey then 2 else if buffer ∧ badLength then 3
        else if buffer ∧ outOfRange s.platform s.addr s.len = true then 4 else 0 := by
      simp only [check_command hd, readsSchedule_iff, usesBuffer_iff_opcode, hop]
      rfl
    rw [hcheck]
    exact ⟨fun h => absurd h hi, fun _ hk => if_pos hk,
      fun _ hk hb hl => by rw [if_neg hk, if_pos ⟨hb, hl⟩],
      fun _ hk hb hl hr => by rw [if_neg hk, if_neg fun h => hl h.2, if_pos ⟨hb, hrange.2 hr⟩],
      fun _ hk hb => by rw [if_neg hk, if_neg fun h => (hb h.1).1 h.2, if_neg fun h => (hb h.1).2 (hrange.1 h.2)]⟩

/-! ### No stop of the core (R117, R156) -/

/-- R143: the controller's step always answers. -/
theorem controllerEvent_answers {s : State} (ht : s.turn = .controller) : ∃ t, controllerEvent s = .next t := by
  unfold controllerEvent
  split
  · exact ⟨_, exec_controller ht _⟩
  · exact ⟨_, rfl⟩

/-- R127, R134: a worker's step answers, since the block it is at lies in the buffer and so in data memory. -/
theorem workerEvent_answers {s : State} {w : Nat} (hr : RangesLegal s) (ht : s.turn = .worker w) :
    ∃ t, workerEvent s = .next t := by
  unfold workerEvent
  split
  · next i _ =>
    rw [exec_worker ht]
    rcases workerStep_cases i (blockFunctionOf i) w s with ⟨k, -, -, heq⟩ | ⟨k, hk, hout, -⟩ | ⟨-, heq⟩
    · exact ⟨_, heq⟩
    · obtain ⟨-, -, -, hw, hlt⟩ := workerReady_some hk
      obtain ⟨-, hin⟩ := block_in_buffer hr hw hlt
      exact absurd (hin.trans hr.in_memory) (Nat.not_le.2 hout)
    · exact ⟨_, heq⟩
  · exact ⟨_, rfl⟩

/-- Settles O57: the only stop in the core is a block outside data memory, which legal ranges exclude. -/
theorem coreNeverStops : Obligations.CoreNeverStops := by
  intro s e es hs he hi
  unfold Safe
  rw [step_input hi]
  have hr : RangesLegal (s.atTurn es e.agent) := rangesLegal_congr hs.ranges rfl rfl rfl rfl rfl
  cases e with
  | controller => exact controllerEvent_answers rfl
  | worker w => exact workerEvent_answers hr rfl
  | reset => exact ⟨_, rfl⟩
  | busWrite | busRead | memWrite | memRead | program => cases he

end Sys2Proof.Proofs

/-! SUPPORT. Reset and hazards: completion in the model's default order, host accesses to a buffer in use, and the reset
input. -/

namespace Sys2Proof.Proofs

open Sys2Proof Sys2Proof.Machine Sys2Proof.Safety

/-! ### Completion with no event to come (R181, R182) -/

/-- Log entry 4: with no event to come the step is the default event's. -/
theorem step_default {s : State} {e : Event} (hi : s.inputs = []) (hd : defaultEvent s = some e) :
    step s = runEvent e s := by
  simp [step, advanceMachine, hi, hd]

/-- R133: a worker has a step exactly when it is ready for the command OPL names. -/
theorem workerHasStep_iff {s : State} {w : Nat} :
    workerHasStep s w = true ↔ ∃ i k, s.opl = i.opcode ∧ workerReady i w s = some k := by
  rw [workerHasStep, Option.any_eq_true]
  constructor
  · rintro ⟨i, ho, hready⟩
    obtain ⟨k, hk⟩ := Option.isSome_iff_exists.1 hready
    exact ⟨i, k, (opcode_of_ofOpcode ho).symm, hk⟩
  · rintro ⟨i, k, ho, hk⟩
    exact ⟨i, by rw [ho, ofOpcode_opcode], by rw [hk]; rfl⟩

/-- R133, R135, R143: while a command is in progress and no worker has a step, the controller has one: either it waits
for no worker, or every worker is at the end of its range. -/
theorem controllerEnabled_of_no_worker {s : State} (hr : RangesLegal s) (hb : s.status.busy = true)
    (hn : ∀ w < s.workers.length, ¬workerHasStep s w = true) : controllerEnabled s = true := by
  rw [controllerEnabled_iff]
  refine ⟨hb, ?_⟩
  by_contra hwait
  push Not at hwait
  obtain ⟨he, hu, k, hk, hne⟩ := hwait
  obtain ⟨i, hi, hbuf⟩ := (Option.any_eq_true _ _).1 (Bool.eq_true_of_not_eq_false hu)
  have ho : s.opl = i.opcode := (opcode_of_ofOpcode hi).symm
  obtain ⟨w, hw⟩ := List.mem_iff_getElem?.1 hk
  obtain ⟨-, hle, -⟩ := hr.ordered k hk
  have hready : workerReady i w s = some k :=
    workerReady_iff.2 ⟨⟨hb, ho⟩, hbuf, he, hw, by bv_omega⟩
  exact hn w (List.getElem?_eq_some_iff.1 hw).1 (workerHasStep_iff.2 ⟨i, k, ho, hready⟩)

/-- Log entry 4: the default event while a command is in progress is a ready worker's or the enabled controller's. -/
theorem defaultEvent_busy {s : State} (hr : RangesLegal s) (hb : s.status.busy = true) :
    (∃ w, defaultEvent s = some (.worker w) ∧ workerHasStep s w = true) ∨
    (defaultEvent s = some .controller ∧ controllerEnabled s = true) := by
  unfold defaultEvent
  cases hf : (List.range s.workers.length).find? (workerHasStep s) with
  | some w => exact .inl ⟨w, rfl, List.find?_some hf⟩
  | none =>
    have hen := controllerEnabled_of_no_worker hr hb fun w hw => List.find?_eq_none.1 hf w (List.mem_range.2 hw)
    exact .inr ⟨if_pos hen, hen⟩

/-- R134: a ready worker's step answers with its block processed. -/
theorem workerEvent_block {s : State} {i : Instr} {w : Nat} {k : Worker} (hr : RangesLegal s)
    (ht : s.turn = .worker w) (ho : s.opl = i.opcode) (hk : workerReady i w s = some k) :
    workerEvent s = .next (afterBlock i w k s) := by
  obtain ⟨-, -, -, hw, hlt⟩ := workerReady_some hk
  obtain ⟨-, hin⟩ := block_in_buffer hr hw hlt
  rw [workerEvent_named ho, exec_worker ht, workerStep, hk]
  exact if_pos (hin.trans hr.in_memory)

/-- R143: the controller's step, where it has one, clears BUSY. -/
theorem controllerEvent_clears_busy {s : State} (ht : s.turn = .controller) (hen : controllerEnabled s = true) :
    ∃ t, controllerEvent s = .next t ∧ t.status.busy = false := by
  by_cases he : s.ecl = codeNone
  · cases ho : Instr.ofOpcode s.opl with
    | some i => exact ⟨_, controllerEvent_completes ht hen he (opcode_of_ofOpcode ho).symm, rfl⟩
    | none =>
      refine ⟨s.setStatus s.status.completed, ?_, rfl⟩
      rw [controllerEvent, ho, if_pos hen, complete_ok he]
  · exact ⟨_, controllerEvent_error ht (controllerEnabled_busy hen) he, rfl⟩

/-- Replacing an entry of a list replaces its share of a sum. -/
theorem sum_map_set {α : Type} (f : α → Nat) {l : List α} {w : Nat} {a : α} (h : l[w]? = some a) (b : α) :
    ((l.set w b).map f).sum + f a = (l.map f).sum + f b := by
  obtain ⟨hw, rfl⟩ := List.getElem?_eq_some_iff.1 h
  have hold := ((List.getElem_cons_eraseIdx_perm hw).map f).sum_eq
  have hnew := ((List.set_perm_cons_eraseIdx hw b).map f).sum_eq
  rw [List.map_cons, List.sum_cons] at hold hnew
  omega

/-- R134: a block step leaves one block less. -/
theorem blocksLeft_afterBlock {s : State} {i : Instr} {w : Nat} {k : Worker} (hk : workerReady i w s = some k) :
    blocksLeft (afterBlock i w k s) + 1 = blocksLeft s := by
  obtain ⟨-, -, -, hw, hlt⟩ := workerReady_some hk
  have hsum := sum_map_set (fun k => k.hi.toNat - k.nx.toNat) hw { k with nx := k.nx + 1 }
  simp only [nx_succ_toNat hlt] at hsum
  rw [BitVec.lt_def] at hlt
  simp only [blocksLeft, State.setWorkers_workers]
  omega

/-- R182: a default step while a command is in progress completes the command or leaves one block less. -/
theorem default_step_progress {s : State} (hr : RangesLegal s) (hi : s.inputs = []) (hb : s.status.busy = true) :
    ∃ t, step s = .next t ∧ (t.status.busy = false ∨
      t.inputs = [] ∧ t.status.busy = true ∧ blocksLeft t + 1 = blocksLeft s) := by
  rcases defaultEvent_busy hr hb with ⟨w, hd, hw⟩ | ⟨hd, hen⟩ <;> rw [step_default hi hd]
  · obtain ⟨i, k, ho, hk⟩ := workerHasStep_iff.1 hw
    exact ⟨_, workerEvent_block (s := s.setTurn (.worker w)) (rangesLegal_congr hr rfl rfl rfl rfl rfl) rfl ho hk,
      .inr ⟨hi, hb, blocksLeft_afterBlock hk⟩⟩
  · obtain ⟨t, ht, hidle⟩ := controllerEvent_clears_busy (s := s.setTurn .controller) rfl hen
    exact ⟨t, ht, .inl hidle⟩

/-- A run whose first step answers continues from there. -/
theorem run_succ {s t : State} (h : step s = .next t) (n : Nat) :
    Sys2Proof.core.run (n + 1) s = Sys2Proof.core.run n t := by
  have hstep : Sys2Proof.core.step s = .next t := h
  simp only [Host.Core.run, hstep]

/-- Settles O46, by induction on the number of blocks left, which every step but the completion lowers. -/
theorem defaultOrderCompletes : Obligations.DefaultOrderCompletes := by
  intro s hs hi hb
  induction hm : blocksLeft s using Nat.strong_induction_on generalizing s with
  | _ m ih =>
    obtain ⟨t, hstep, hidle | ⟨hit, hbt, hless⟩⟩ := default_step_progress hs.ranges hi hb
    · exact ⟨1, t, by omega, run_succ hstep 0, hidle⟩
    · obtain ⟨n, u, hn, hrun, hidle⟩ := ih _ (by omega) t (stepKeepsLegal s t hs hstep) hit hbt rfl
      exact ⟨n + 1, u, by omega, (run_succ hstep n).trans hrun, hidle⟩

/-! ### Host accesses to a buffer in use (R177) -/

/-- R177: an access to an existing byte of a buffer in use is BufferRace, whatever it would do. -/
theorem atMemory_race {α : Type} {a : Nat} {s : State} (ha : a < memorySize s.platform)
    (hb : inBuffer s a = true) (k : Host.Outcome α Fault Refusal) : atMemory a s k = .fault (.bufferRace a) := by
  rw [atMemory, if_neg (Nat.not_le.2 ha), if_pos hb]

/-- Settles O47: the read and the write make the same check. -/
theorem bufferAccessRaces : Obligations.BufferAccessRaces := by
  intro s a b hb ho hlo hhi ha
  have hin : inBuffer s a = true := (inBuffer_iff_ecb s a).2 ⟨hb, ho, hlo, hhi⟩
  exact ⟨atMemory_race ha hin _, atMemory_race ha hin _⟩

/-! ### The reset input (R170, R171) -/

/-- R171: the bytes drawn are successive free values. -/
theorem memRead_drawBytes_inside {m : List Host.Cell} (h : Memory.wf m) (a d : Nat) :
    ∀ {n i : Nat}, i < n → memRead (drawBytes m a d n) (a + i) = Config.freeByte (d + i)
  | n + 1, i, hi => by
    rw [drawBytes]
    by_cases hlast : i = n
    · rw [hlast, memRead_memWrite_same _ _ (drawBytes_wf a d h n)]
    · rw [memRead_memWrite_other (by omega), memRead_drawBytes_inside h a d (by omega)]

/-- R171: a reset leaves every byte outside the buffer in use as it is. -/
theorem memRead_resetStep_outside {s : State} {a : Nat} (ha : ¬inBuffer s a = true) :
    memRead (resetStep s).mem a = memRead s.mem a := by
  rw [inBuffer_iff] at ha
  exact memRead_drawBytes_outside _ _ (by omega)

/-- R171: after a reset a byte of the buffer in use is the free value drawn for its place in the buffer. -/
theorem memRead_resetStep_inside {s : State} (h : Memory.wf s.mem) {a : Nat} (ha : inBuffer s a = true) :
    memRead (resetStep s).mem a = Config.freeByte (s.draws + (a - s.addrl.toNat)) := by
  obtain ⟨hlo, hhi⟩ := (inBuffer_iff s a).1 ha
  obtain ⟨i, rfl⟩ := Nat.exists_eq_add_of_le hlo
  rw [Nat.add_sub_cancel_left]
  exact memRead_drawBytes_inside h _ _ (by omega)

/-- Settles O52: the registers are those of `State.reset`, and the buffer in use is the one of the ECB opcodes. -/
theorem resetInput : Obligations.ResetInput := by
  intro s es hi hwf ecb inside
  have hin : ∀ a, inBuffer (s.atTurn es .host) a = true ↔ ecb ∧ inside a :=
    fun a => (inBuffer_iff_ecb s a).trans (and_assoc (a := s.status.busy = true)).symm
  have hstatus : statusWord (resetStep (s.atTurn es .host)) = statusWord State.reset := rfl
  refine ⟨resetStep (s.atTurn es .host), step_input hi, hstatus.trans (by decide), rfl, rfl, rfl, rfl, rfl, rfl, rfl,
    rfl, rfl, rfl, rfl, rfl, fun a ha => ?_, fun he a ha => ?_⟩
  · exact memRead_resetStep_outside (mt (hin a).1 ha)
  · exact memRead_resetStep_inside (s := s.atTurn es .host) hwf ((hin a).2 ⟨he, ha⟩)

end Sys2Proof.Proofs
